-- ==== Sys2Proof/Word.lean ====
section
/-! DEFINITION. The word types of the HIC: the 32-bit command word and the 8-bit fields of the configuration register.

Scalars and coordinate lanes are natural numbers (00 R10: "Every quantity is unsigned: a natural number, with its width
stated"), because their width IW is a parameter (00 R6). Every reduction to a width is written out, as 00 R11 asks. -/

namespace Sys2Proof

/-- The command word `in_cmd` (30 R47: "a 32-bit command word"). -/
abbrev CmdWord := BitVec 32

/-- The width of the fields `D` and `N` of `cfg` (10 R19). -/
abbrev SpecField := BitVec 8

end Sys2Proof
end

