-- ==== Sys2Proof/Syntax.lean ====
section
/-! DEFINITION. The nine commands of HIC command set 1, one constructor for each row of spec/opcode_table.json.

Operand fields are natural numbers (30 R49: "each read as an unsigned 8-bit integer in 0 .. 255"), and
Sys2Proof/WellFormed.lean says which of them fit their field. The payload is not part of the command word (30 R47): it
stands on the ports `in_data` and `in_coord`. -/

namespace Sys2Proof

inductive Instr where
  /-- CONFIG D, N (42 R82) -/
  | config (d n : Nat)
  /-- ENCODE (42 R85) -/
  | encode
  /-- DECODE L (42 R88) -/
  | decode (l : Nat)
  /-- BITRANGE width, start, end (40 R67) -/
  | bitrange (width start stop : Nat)
  /-- ROTL width, amount, in the order of the fields FA, FB (40 R68) -/
  | rotl (width amount : Nat)
  /-- ROTR width, amount, in the order of the fields FA, FB (40 R69) -/
  | rotr (width amount : Nat)
  /-- GRAYENC (40 R70) -/
  | grayenc
  /-- GRAYDEC (40 R71) -/
  | graydec
  /-- TSB width (40 R72) -/
  | tsb (width : Nat)
  deriving DecidableEq, Repr

end Sys2Proof
end

