-- ==== Sys2Proof/WellFormed.lean ====
section
/-! DEFINITION. Which command terms a command word can hold (30 R56: "Each field value must fit in 8 bits"). -/

namespace Sys2Proof

/-- A value fits an operand field FA, FB or FC (30 R49). -/
abbrev fitsField (v : Nat) : Prop := v < 256

/-- Every operand of the command fits its 8-bit field. -/
def Instr.wf : Instr → Bool
  | .config d n => decide (fitsField d) && decide (fitsField n)
  | .encode => true
  | .decode l => decide (fitsField l)
  | .bitrange width start stop => decide (fitsField width) && decide (fitsField start) && decide (fitsField stop)
  | .rotl width amount => decide (fitsField width) && decide (fitsField amount)
  | .rotr width amount => decide (fitsField width) && decide (fitsField amount)
  | .grayenc => true
  | .graydec => true
  | .tsb width => decide (fitsField width)

end Sys2Proof
end

