-- ==== Sys2Proof/Decode.lean ====
section
/-! DEFINITION. The command word: its fields (30 R48), the decoder (30 R55), total on all words and refusing by name, and
the encoder (30 R48, R49, R56). -/

namespace Sys2Proof

/-! ## The fields of a command word (30 R48) -/

/-- `OP` = `in_cmd[3:0]` -/
def fieldOP (w : CmdWord) : Nat := w.toNat % 16

/-- `RSV` = `in_cmd[7:4]` -/
def fieldRSV (w : CmdWord) : Nat := w.toNat / 16 % 16

/-- `FA` = `in_cmd[15:8]` -/
def fieldFA (w : CmdWord) : Nat := w.toNat / 256 % 256

/-- `FB` = `in_cmd[23:16]` -/
def fieldFB (w : CmdWord) : Nat := w.toNat / 65536 % 256

/-- `FC` = `in_cmd[31:24]` -/
def fieldFC (w : CmdWord) : Nat := w.toNat / 16777216 % 256

/-! ## The decoder -/

/-- Why a command word is illegal. All three are answered with the one status IllegalCommand (60 R97). -/
inductive Illegal where
  /-- `RSV` is not 0 (30 R52) -/
  | reservedField
  /-- `OP` is 0x0 or 0xA to 0xF (30 R51) -/
  | reservedOpcode
  /-- a field that must be 0 for this opcode is not 0 (30 R53) -/
  | mustBeZero
  deriving DecidableEq, Repr

/-- A command whose fields `z` must all be 0 (30 R53). -/
def withZero (z : List Nat) (i : Instr) : Except Illegal Instr :=
  if z.all (· == 0) then .ok i else .error .mustBeZero

/-- The decoder of 30 R55, its checks in the order the rule shows. -/
def decodeWord (w : CmdWord) : Except Illegal Instr :=
  if fieldRSV w ≠ 0 then .error .reservedField
  else
    match fieldOP w with
    | 0x1 => withZero [fieldFC w] (.config (fieldFA w) (fieldFB w))
    | 0x2 => withZero [fieldFA w, fieldFB w, fieldFC w] .encode
    | 0x3 => withZero [fieldFB w, fieldFC w] (.decode (fieldFA w))
    | 0x4 => .ok (.bitrange (fieldFA w) (fieldFB w) (fieldFC w))
    | 0x5 => withZero [fieldFC w] (.rotl (fieldFA w) (fieldFB w))
    | 0x6 => withZero [fieldFC w] (.rotr (fieldFA w) (fieldFB w))
    | 0x7 => withZero [fieldFA w, fieldFB w, fieldFC w] .grayenc
    | 0x8 => withZero [fieldFA w, fieldFB w, fieldFC w] .graydec
    | 0x9 => withZero [fieldFB w, fieldFC w] (.tsb (fieldFA w))
    | _ => .error .reservedOpcode

/-! ## The encoder -/

/-- The opcode of a command (30 R50). -/
def Instr.opcode : Instr → Nat
  | .config _ _ => 0x1
  | .encode => 0x2
  | .decode _ => 0x3
  | .bitrange _ _ _ => 0x4
  | .rotl _ _ => 0x5
  | .rotr _ _ => 0x6
  | .grayenc => 0x7
  | .graydec => 0x8
  | .tsb _ => 0x9

/-- The fields (FA, FB, FC) of a command (30 R49). -/
def Instr.fields : Instr → Nat × Nat × Nat
  | .config d n => (d, n, 0)
  | .encode => (0, 0, 0)
  | .decode l => (l, 0, 0)
  | .bitrange width start stop => (width, start, stop)
  | .rotl width amount => (width, amount, 0)
  | .rotr width amount => (width, amount, 0)
  | .grayenc => (0, 0, 0)
  | .graydec => (0, 0, 0)
  | .tsb width => (width, 0, 0)

/-- The command word of a command: `OP | (RSV << 4) | (FA << 8) | (FB << 16) | (FC << 24)` with RSV = 0 (30 R48). -/
def encodeWord (i : Instr) : CmdWord :=
  let f := i.fields
  BitVec.ofNat 32 (i.opcode ||| f.1 <<< 8 ||| f.2.1 <<< 16 ||| f.2.2 <<< 24)

/-! ## The opcode table (spec/opcode_table.json) -/

/-- One row: the word matches when `word &&& mask = pattern`. -/
structure OpcodeRow where
  mnemonic : String
  pattern : CmdWord
  mask : CmdWord
  deriving DecidableEq, Repr

/-- The rows of spec/opcode_table.json, in its order (30 R53 gives the masks). -/
def opcodeTable : List OpcodeRow :=
  [ ⟨"CONFIG", 0x00000001#32, 0xFF0000FF#32⟩,
    ⟨"ENCODE", 0x00000002#32, 0xFFFFFFFF#32⟩,
    ⟨"DECODE", 0x00000003#32, 0xFFFF00FF#32⟩,
    ⟨"BITRANGE", 0x00000004#32, 0x000000FF#32⟩,
    ⟨"ROTL", 0x00000005#32, 0xFF0000FF#32⟩,
    ⟨"ROTR", 0x00000006#32, 0xFF0000FF#32⟩,
    ⟨"GRAYENC", 0x00000007#32, 0xFFFFFFFF#32⟩,
    ⟨"GRAYDEC", 0x00000008#32, 0xFFFFFFFF#32⟩,
    ⟨"TSB", 0x00000009#32, 0xFFFF00FF#32⟩ ]

/-- A word matches a row of the opcode table. -/
def OpcodeRow.accepts (r : OpcodeRow) (w : CmdWord) : Bool := w &&& r.mask == r.pattern

/-- The word a table row's bits stand for: bits above `nbits` are 0. -/
def tableWord (nbits w : Nat) : CmdWord := BitVec.ofNat 32 (w % 2 ^ nbits)

/-- What the decoder reads from an instruction whose `nbits` bits are `w`, numbered as spec/opcode_table.json numbers them.
A command is one 32-bit word (30 R47) and the HIC has no bytes (20 R33), so the bits are the word itself. -/
def decodeTableWord (nbits w : Nat) : Option Instr := (decodeWord (tableWord nbits w)).toOption

end Sys2Proof
end

