-- ==== Sys2Proof/Config.lean ====
section
/-! DEFINITION. What one implementation of the HIC fixes (00 section 3) and the free values of the model. -/

namespace Sys2Proof

/-- The legal values of `IW` (00 R6: "Legal values are 32 and 64"). -/
inductive IndexWidth where
  | w32
  | w64
  deriving DecidableEq, Repr

/-- The number of bits of the index datapath. -/
def IndexWidth.bits : IndexWidth → Nat
  | .w32 => 32
  | .w64 => 64

/-- The parameters of an implementation (00 R6, R7, R8). `stallMax` is the bound of 70 R117 ("within a bounded number of
cycles"), to which the spec gives no name. -/
structure Params where
  width : IndexWidth
  dmax : Nat
  qcap : Nat
  lat : Nat
  stallMax : Nat
  deriving DecidableEq, Repr

/-- `IW` as a number of bits. -/
def Params.iw (p : Params) : Nat := p.width.bits

/-- The conditions 00 R7 and R8 put on the parameters. -/
abbrev Params.Legal (p : Params) : Prop :=
  1 ≤ p.dmax ∧ p.dmax ≤ min p.iw 255 ∧ 1 ≤ p.qcap ∧ 1 ≤ p.lat

/-- The parameters State.reset carries: the reference values IW = 64 and DMAX = 8 of 00 R6 and R7.
DESIGN CHOICE (unsafe, log 1): the spec gives no reference value of QCAP, LAT and the bound of R117. -/
def Params.reference : Params :=
  { width := .w64, dmax := 8, qcap := 4, lat := 64, stallMax := 64 }

/-- FREE VALUE (safe, log 3): the latency the device chooses at an edge that State.edges does not list. -/
opaque Config.freeLatency : Nat → Nat

/-- FREE VALUE (safe, log 3): how long the device holds `in_ready` = 0 after an edge that State.edges does not list. -/
opaque Config.freeStall : Nat → Nat

end Sys2Proof
end

