-- ==== Sys2Proof/Machine/State.lean ====
section
/-! DEFINITION. The state of the HIC (10 R15, R19, R23, R26), what surrounds it, the reasons a step can stop, and the state
after reset (10 R31, 70 R110). -/

namespace Sys2Proof.Machine

/-! ## The configuration register -/

/-- `cfg`, the 17-bit configuration register (10 R19): 1 + 8 + 8 bits. -/
structure CurveConfig where
  valid : Bool
  d : SpecField
  n : SpecField
  deriving DecidableEq, Repr

/-- The reset value of `cfg` (10 R21). -/
def CurveConfig.reset : CurveConfig := { valid := false, d := 0#8, n := 0#8 }

/-! ## Responses -/

/-- The status of a response (60 R92). Codes 7 to 15 are never produced, so there is no constructor for them (log 10). -/
inductive Status where
  | ok
  | invalidSpec
  | indexOutOfRange
  | coordinateOutOfRange
  | dimensionMismatch
  | illegalCommand
  | illegalOperand
  deriving DecidableEq, Repr

/-- A response record `{status, data, coord}` (00 R12, 10 R26): `data` is an IW-bit value, `coord` has DMAX lanes of IW bits,
lane 0 first. -/
structure Response where
  status : Status
  data : Nat
  coord : List Nat
  deriving DecidableEq, Repr

/-- An entry of `Q` (10 R26): the response, and the edges until its result is available (70 R118), 0 when it is. -/
structure Entry where
  resp : Response
  wait : Nat
  deriving DecidableEq, Repr

/-! ## What surrounds the device -/

/-- A command as it stands on the input ports (30 R47). `coord` is the whole bus `in_coord`, lane j at bits
[(j+1)·IW − 1 : j·IW] (10 R25). -/
structure Command where
  word : CmdWord
  data : Nat
  coord : Nat
  deriving DecidableEq, Repr

/-- What one rising edge of `clk` brings: the host's ports (10 R24) and the two choices of the device (70 R117, R118; log 2
and log 3): `latency`, the edges from an acceptance at this edge until its response is available, and `stall`, the edges
after this one for which the device holds `in_ready` = 0. -/
structure Edge where
  rst : Bool
  inValid : Bool
  cmd : Command
  outReady : Bool
  latency : Nat
  stall : Nat
  deriving DecidableEq, Repr

/-! ## The state -/

/-- The machine. `cfg`, `errSticky` and `queue` are the architectural state (10 R15). `params` are the parameters of the
implementation, which no step changes (log 1). `started`, `offered` and `stall` are what the handshake rules depend on
(70 R112, R115, R117). `edges` and `tick` are the surroundings (log 2). -/
structure State where
  params : Params
  cfg : CurveConfig
  errSticky : Bool
  queue : List Entry
  started : Bool
  offered : Option Command
  stall : Nat
  edges : List Edge
  tick : Nat
  deriving DecidableEq, Repr

/-- The HIC does not trap (60 R91, R102): a failed command is answered with a status, and no step stops with a fault. So
there is no reason to name. -/
inductive Fault where
  deriving DecidableEq, Repr

/-- Why a run has no meaning. -/
inductive Refusal where
  /-- Raised by an arm of `exec` for a command that has no meaning yet; no arm does. Safe: the model stops. -/
  | notModelled (mnemonic : String)
  /-- Raised by `step` when the host offers a command before the first reset edge (70 R112: "A model refuses a run that
  issues a command before the first reset"). Safe: the model stops. -/
  | commandBeforeReset
  /-- Raised by `step` when the host withdraws or changes an offered command before its transfer, at a reset edge too
  (70 R115: "A host that changes them earlier gives the run no meaning, and a model refuses it"). Safe: the model stops. -/
  | commandNotHeld
  deriving DecidableEq, Repr

/-! ## Reset -/

/-- The machine of parameters `p` right after reset (10 R31). The fields the spec gives no value are log 4's. -/
def State.resetWith (p : Params) : State :=
  { params := p
    cfg := CurveConfig.reset
    errSticky := false
    queue := []
    started := true
    offered := none
    stall := 0
    edges := []
    tick := 0 }

/-- The machine right after reset. -/
def State.reset : State := State.resetWith Params.reference

end Sys2Proof.Machine
end

