-- ==== Sys2Proof/Machine/Operands.lean ====
section
/-! DEFINITION. The operands of a command: the ports at the coming edge, the width of each bus, and the lanes of the
coordinate buses (10 R24, R25; 30 R49). -/

namespace Sys2Proof.Machine

/-! ## Buses and lanes (10 R25) -/

/-- Lane j of a coordinate bus: its bits [(j+1)·IW − 1 : j·IW]. -/
def laneOf (iw bus j : Nat) : Nat := (bus >>> (j * iw)) % 2 ^ iw

/-- The lanes 0 .. k−1 of a coordinate bus, lane 0 first. -/
def unpackLanes (iw k bus : Nat) : List Nat := (List.range k).map (laneOf iw bus)

/-- The bus that carries the given lanes, lane 0 in the least significant IW bits. -/
def packLanes (iw : Nat) : List Nat → Nat
  | [] => 0
  | c :: cs => c % 2 ^ iw + 2 ^ iw * packLanes iw cs

/-- `ZERO`, the all-zero coordinate vector (00 R12). -/
def zeroCoord (p : Params) : List Nat := List.replicate p.dmax 0

/-- A command cut to the width of its ports: IW bits of `in_data`, DMAX lanes of IW bits of `in_coord` (20 R35; log 6). -/
def Command.sample (p : Params) (c : Command) : Command :=
  { word := c.word
    data := c.data % 2 ^ p.iw
    coord := packLanes p.iw (unpackLanes p.iw p.dmax c.coord) }

/-! ## The coming edge -/

/-- An edge at which the host drives nothing; the device's choices are free values (log 2, log 3). -/
def Edge.idle (tick : Nat) : Edge :=
  { rst := false
    inValid := false
    cmd := { word := 0#32, data := 0, coord := 0 }
    outReady := false
    latency := Config.freeLatency tick
    stall := Config.freeStall tick }

/-- The coming rising edge: the next one `edges` lists, an idle one when it lists none. -/
def State.edge (s : State) : Edge := s.edges.head?.getD (Edge.idle s.tick)

/-- The command on the input ports at the coming edge, at the width of the ports. -/
def State.inCommand (s : State) : Command := s.edge.cmd.sample s.params

/-- `in_data` of the command being executed. -/
def State.inData (s : State) : Nat := s.inCommand.data

/-- `in_coord[0] … in_coord[DMAX−1]` of the command being executed. -/
def State.inLanes (s : State) : List Nat := unpackLanes s.params.iw s.params.dmax s.inCommand.coord

/-- `in_coord[j]` of the command being executed; 0 where the port has no lane j (log 9). -/
def State.inLane (s : State) (j : Nat) : Nat := s.inLanes.getD j 0

/-! ## The configuration as numbers -/

/-- `cfg.D` -/
def State.curveD (s : State) : Nat := s.cfg.d.toNat

/-- `cfg.N` -/
def State.curveN (s : State) : Nat := s.cfg.n.toNat

end Sys2Proof.Machine
end

