-- ==== Sys2Proof/Machine/Flags.lean ====
section
/-! DEFINITION. The status codes (60 R92) and the sticky error bit (10 R23). The HIC has no other flag (10 R22). -/

namespace Sys2Proof.Machine

/-- The 4-bit code of a status (60 R92). -/
def Status.code : Status → BitVec 4
  | .ok => 0#4
  | .invalidSpec => 1#4
  | .indexOutOfRange => 2#4
  | .coordinateOutOfRange => 3#4
  | .dimensionMismatch => 4#4
  | .illegalCommand => 5#4
  | .illegalOperand => 6#4

/-- A response reports a failure: `status ≠ 0` (60 R91). -/
def Response.failed (r : Response) : Bool := r.status.code != 0#4

/-- `err_sticky` after the delivery of `r`: set by a response with `status ≠ 0`, and never cleared (10 R23). -/
def stickyAfter (sticky : Bool) (r : Response) : Bool := sticky || r.failed

end Sys2Proof.Machine
end

