-- ==== Sys2Proof/Machine/Ops.lean ====
section
/-! DEFINITION. The operations every command and every edge share: completing a command (00 R12), the two handshakes
(70 R114 to R118), the delivery of a response (10 R30), what time does at an edge, and reset (70 R110).

The HIC takes no exception and returns from none (60 R102). A failure is `raise`: the command's own response. -/

namespace Sys2Proof.Machine

abbrev StepOutcome := Host.Outcome State Fault Refusal

/-- The outcome with its next state changed by `f`. -/
def mapNext (f : State → State) : StepOutcome → StepOutcome
  | .next s => .next (f s)
  | .fault r => .fault r
  | .refused r => .refused r

/-! ## Completing a command -/

/-- The latency of a command accepted at the coming edge: the device's choice, between 1 and LAT (00 R8, 70 R118). -/
def State.latency (s : State) : Nat := min (max 1 s.edge.latency) s.params.lat

/-- The state with one more response at the end of `Q` (10 R26, R30). -/
def State.answered (s : State) (r : Response) : State :=
  { s with queue := s.queue ++ [{ resp := r, wait := s.latency }] }

/-- `respond(status, data, coord)`: completes the command (00 R12). -/
def respond (status : Status) (data : Nat) (coord : List Nat) (s : State) : StepOutcome :=
  .next (s.answered { status := status, data := data, coord := coord })

/-- `raise E`: completes the command with `respond(E, 0, ZERO)` and changes nothing else (00 R12, 60 R99). -/
def raise (e : Status) (s : State) : StepOutcome := respond e 0 (zeroCoord s.params) s

/-- An illegal command word is answered with IllegalCommand (30 R51, R52, R53; 60 R97). -/
def acceptIllegal (s : State) : StepOutcome := raise .illegalCommand s

/-! ## The ports of the device (10 R24) -/

/-- `Q` holds QCAP entries (70 R117). -/
def State.full (s : State) : Bool := decide (s.params.qcap ≤ s.queue.length)

/-- `in_ready` at the coming edge: 0 while `rst` = 1 (70 R111) and whenever `Q` is full; otherwise the device's choice
(70 R117). -/
def State.inReady (s : State) : Bool := s.started && !s.edge.rst && s.stall == 0 && !s.full

/-- The response `out_status`, `out_data` and `out_coord` present at the coming edge: the head of `Q` once its result is
available (70 R116), none while `out_valid` = 0 (70 R111). -/
def State.outResponse (s : State) : Option Response :=
  if s.started && !s.edge.rst then
    match s.queue with
    | [] => none
    | e :: _ => if e.wait == 0 then some e.resp else none
  else none

/-- `out_valid` at the coming edge (70 R111, R116). -/
def State.outValid (s : State) : Bool := s.outResponse.isSome

/-- The device's output ports (10 R24). -/
structure Outputs where
  inReady : Bool
  outValid : Bool
  /-- (`out_status`, `out_data`, `out_coord`), with no value while `out_valid` = 0 (70 R111) -/
  out : Option (BitVec 4 × Nat × Nat)
  errSticky : Bool
  deriving DecidableEq, Repr

/-- The output ports at the coming edge; before the first reset they are unspecified (70 R112), so there is no value. -/
def State.outputs (s : State) : Option Outputs :=
  if s.started then
    some
      { inReady := s.inReady
        outValid := s.outValid
        out := s.outResponse.map fun r => (r.status.code, r.data, packLanes s.params.iw r.coord)
        errSticky := s.errSticky }
  else none

/-! ## Transfers (70 R114) -/

/-- The input channel transfers a command at the coming edge. -/
def State.inTransfer (s : State) : Bool := s.edge.inValid && s.inReady

/-- The output channel transfers a response at the coming edge. -/
def State.outTransfer (s : State) : Bool := s.edge.outReady && s.outValid

/-- The command offered earlier and not transferred yet, if any, stands unchanged on the ports (70 R115). -/
def State.offerHeld (s : State) : Bool :=
  match s.offered with
  | none => true
  | some c => s.edge.inValid && s.inCommand == c

/-- Runs to which the spec gives no meaning: a command before the first reset (70 R112), and an offered command that is not
held until its transfer (70 R115), be the edge a reset edge or not (log 8). -/
def State.hostRefusal (s : State) : Option Refusal :=
  if !s.started && !s.edge.rst && s.edge.inValid then some .commandBeforeReset
  else if s.offerHeld then none
  else some .commandNotHeld

/-- The delivery of a response: the head of `Q` leaves and `err_sticky` follows it (10 R23, R30). -/
def State.deliver (s : State) : State :=
  match s.queue with
  | [] => s
  | e :: rest => { s with queue := rest, errSticky := stickyAfter s.errSticky e.resp }

/-! ## Time -/

/-- One edge nearer to being available. -/
def Entry.age (e : Entry) : Entry := { e with wait := e.wait - 1 }

/-- The device's choice of how long to hold `in_ready` = 0, within its bound (70 R117; log 3). -/
def State.chosenStall (s : State) : Nat := min s.edge.stall s.params.stallMax

/-- `stall` after the coming edge: frozen while `Q` is full, chosen anew where `in_ready` was 1, else one less. -/
def State.nextStall (s : State) : Nat :=
  if s.full then s.stall
  else if s.stall == 0 then s.chosenStall
  else s.stall - 1

/-- The command the host has offered at the coming edge and that is not transferred there, a reset edge or not (70 R115:
"until the edge at which the command is transferred"). -/
def State.nextOffered (s : State) : Option Command :=
  if s.edge.inValid && !s.inTransfer then some s.inCommand else none

/-- The end of an edge that began in `s`, applied to the state `t` that its acceptance, if any, gave: the delivery
(70 R114, independent of the acceptance) and one edge of time. -/
def State.endEdge (s t : State) : State :=
  let u := if s.outTransfer then t.deliver else t
  { u with
    queue := u.queue.map Entry.age
    stall := s.nextStall
    offered := s.nextOffered
    edges := s.edges.tail
    tick := s.tick + 1 }

/-! ## Reset -/

/-- A reset edge (70 R110): no transfer, `cfg`, `err_sticky` and `Q` at their reset values. The host's offer is no state of
the device, and goes on (70 R115, log 8). -/
def State.resetEdge (s : State) : State :=
  { s with
    cfg := CurveConfig.reset
    errSticky := false
    queue := []
    started := true
    offered := s.nextOffered
    stall := s.chosenStall
    edges := s.edges.tail
    tick := s.tick + 1 }

/-! ## Placing a command -/

/-- An edge at which the host offers the command word `w` with zero payload to a device that answers at once. -/
def Edge.offering (w : CmdWord) : Edge :=
  { rst := false
    inValid := true
    cmd := { word := w, data := 0, coord := 0 }
    outReady := false
    latency := 1
    stall := 0 }

end Sys2Proof.Machine
end

