-- ==== Sys2Proof/Machine/BitField.lean ====
section
/-! DEFINITION. BitFieldOps: the six functions of 40 R58 to R65 and the six primitive commands of 40 R66 to R72. -/

namespace Sys2Proof.Machine

/-! ## The functions -/

/-- `mask(w)` = 2^w − 1 (00 R11). -/
def mask (w : Nat) : Nat := 2 ^ w - 1

/-- `bitRange(x, W, s, e)` (40 R58). -/
def bitRange (x width start stop : Nat) : Nat := (x >>> (width - stop)) &&& mask (stop - start)

/-- `rotateLeft(x, a, W)` (40 R60). -/
def rotateLeft (x amount width : Nat) : Nat :=
  let y := x &&& mask width
  let r := amount % width
  ((y <<< r) ||| (y >>> (width - r))) &&& mask width

/-- `rotateRight(x, a, W)` (40 R61). -/
def rotateRight (x amount width : Nat) : Nat :=
  let y := x &&& mask width
  let r := amount % width
  ((y >>> r) ||| (y <<< (width - r))) &&& mask width

/-- `grayEncode(x)` (40 R63). -/
def grayEncode (x : Nat) : Nat := x ^^^ (x >>> 1)

/-- `x xor (x >> 1) xor … xor (x >> k)` -/
def xorShifts (x : Nat) : Nat → Nat
  | 0 => x
  | k + 1 => xorShifts x k ^^^ (x >>> (k + 1))

/-- `grayDecode(x)` (40 R64), with k = ⌊log2 x⌋, for which `x >> (k+1) = 0`. -/
def grayDecode (x : Nat) : Nat := xorShifts x x.log2

/-- `trailingSetBits(x, W)` (40 R65): the consecutive 1 bits from bit 0 up, capped at W. -/
def trailingSetBits (x : Nat) : Nat → Nat
  | 0 => 0
  | w + 1 => if x % 2 = 1 then trailingSetBits (x / 2) w + 1 else 0

/-! ## The commands -/

/-- A primitive command's success: `respond(OK, result, ZERO)` (40 R66). -/
def respondData (result : Nat) (s : State) : StepOutcome := respond .ok result (zeroCoord s.params) s

/-- BITRANGE (40 R67). -/
def execBitrange (width start stop : Nat) (s : State) : StepOutcome :=
  if width > s.params.iw ∨ stop > width ∨ start > stop then raise .illegalOperand s
  else respondData (bitRange s.inData width start stop) s

/-- ROTL (40 R68). -/
def execRotl (width amount : Nat) (s : State) : StepOutcome :=
  if width = 0 ∨ width > s.params.iw then raise .illegalOperand s
  else respondData (rotateLeft s.inData amount width) s

/-- ROTR (40 R69). -/
def execRotr (width amount : Nat) (s : State) : StepOutcome :=
  if width = 0 ∨ width > s.params.iw then raise .illegalOperand s
  else respondData (rotateRight s.inData amount width) s

/-- GRAYENC (40 R70). -/
def execGrayenc (s : State) : StepOutcome := respondData (grayEncode s.inData) s

/-- GRAYDEC (40 R71). -/
def execGraydec (s : State) : StepOutcome := respondData (grayDecode s.inData) s

/-- TSB (40 R72). -/
def execTsb (width : Nat) (s : State) : StepOutcome :=
  if width > s.params.iw then raise .illegalOperand s
  else respondData (trailingSetBits s.inData width) s

end Sys2Proof.Machine
end

