-- ==== Sys2Proof/Machine/Recurrence.lean ====
section
/-! DEFINITION. The entry/direction recurrence (41 R73 to R78). -/

namespace Sys2Proof.Machine

/-- The recurrence state (e, d) (41 R73): entry and direction. It lives inside one command only (10 R27). -/
structure Orientation where
  e : Nat
  d : Nat
  deriving DecidableEq, Repr

/-- The initial state of every transform (41 R74). -/
def Orientation.initial : Orientation := { e := 0, d := 0 }

/-- `direction(w, D)` (41 R75). -/
def direction (w dim : Nat) : Nat :=
  if w = 0 then 0
  else if w % 2 = 0 then trailingSetBits (w - 1) dim % dim
  else trailingSetBits w dim % dim

/-- `entry(w)`, by the formula of 41 R76. DESIGN CHOICE (log 15): R76's derived sentence "entry(w) is even for every w"
contradicts that formula, R79 and 95 RC-1 (entry(3) = 3), and 90_conflicts.md does not settle it; the model follows the
formula. -/
def entry (w : Nat) : Nat := if w = 0 then 0 else grayEncode (2 * ((w - 1) / 2))

/-- `Update(e, d, w, D)` (41 R77): both results from the prior (e, d). -/
def Orientation.update (o : Orientation) (w dim : Nat) : Orientation :=
  { e := o.e ^^^ rotateLeft (entry w) (o.d + 1) dim
    d := (o.d + direction w dim + 1) % dim }

/-- `T(e, d, b)` (41 R78). -/
def Orientation.toCurve (o : Orientation) (b dim : Nat) : Nat := rotateRight (b ^^^ o.e) (o.d + 1) dim

/-- `Tinv(e, d, b)` (41 R78). -/
def Orientation.fromCurve (o : Orientation) (b dim : Nat) : Nat := rotateLeft b (o.d + 1) dim ^^^ o.e

end Sys2Proof.Machine
end

