-- ==== Sys2Proof/Machine/Transform.lean ====
section
/-! DEFINITION. The CurveSpec and CONFIG (42 R80 to R82), ENCODE (42 R83 to R86) and DECODE (42 R87, R88). -/

namespace Sys2Proof.Machine

/-! ## CONFIG -/

/-- The pair (D, N) is accepted (42 R81). -/
def specAccepted (p : Params) (dim n : Nat) : Bool :=
  decide (1 ≤ dim) && decide (dim ≤ p.dmax) && decide (n * dim ≤ p.iw)

/-- CONFIG (42 R82). -/
def execConfig (d n : Nat) (s : State) : StepOutcome :=
  if specAccepted s.params d n then
    respond .ok 0 (zeroCoord s.params)
      { s with cfg := { valid := true, d := BitVec.ofNat 8 d, n := BitVec.ofNat 8 n } }
  else raise .invalidSpec s

/-! ## ENCODE -/

/-- `v[k] <- b`: bit k of v written, no other bit changed. -/
def setBit (v k : Nat) (b : Bool) : Nat := (v ^^^ (v &&& 1 <<< k)) ||| (b.toNat <<< k)

/-- Group i of the index (42 R83). -/
def indexGroup (idx dim n i : Nat) : Nat := bitRange idx (n * dim) (i * dim) ((i + 1) * dim)

/-- Step 4 of EncLevel: bit j of l goes to bit k of component j, for every j < D (42 R84). -/
def scatterBits (dim k l : Nat) (coord : List Nat) : List Nat :=
  coord.mapIdx fun j c => if j < dim then setBit c k (l.testBit j) else c

/-- What ENCODE carries from level to level. -/
structure EncCarry where
  orient : Orientation
  coord : List Nat
  deriving DecidableEq, Repr

/-- `EncLevel(i, idx, D, N, e, d, coord)` (42 R84). -/
def encLevel (idx dim n i : Nat) (c : EncCarry) : EncCarry :=
  let w := indexGroup idx dim n i
  let l := c.orient.fromCurve (grayEncode w) dim
  { orient := c.orient.update w dim
    coord := scatterBits dim (n - i - 1) l c.coord }

/-- The levels 0 .. N−1 of ENCODE from the all-zero coordinate of `lanes` lanes and (e, d) = (0, 0) (42 R85, 41 R74). -/
def encLevels (lanes dim n idx : Nat) : EncCarry :=
  (List.range n).foldl (fun c i => encLevel idx dim n i c)
    { orient := Orientation.initial, coord := List.replicate lanes 0 }

/-- ENCODE (42 R85). -/
def execEncode (s : State) : StepOutcome :=
  if s.cfg.valid = false then raise .invalidSpec s
  else if s.inData ≥ 2 ^ (s.curveN * s.curveD) then raise .indexOutOfRange s
  else respond .ok 0 (encLevels s.params.dmax s.curveD s.curveN s.inData).coord s

/-! ## DECODE -/

/-- Step 1 of DecLevel: bit k of component j goes to bit j of l, for every j < D (42 R87, the direct order of 90 C1). -/
def gatherBits (dim k : Nat) (coord : List Nat) : Nat :=
  (List.range dim).foldl (fun l j => setBit l j ((coord.getD j 0).testBit k)) 0

/-- What DECODE carries from level to level. -/
structure DecCarry where
  orient : Orientation
  idx : Nat
  deriving DecidableEq, Repr

/-- `DecLevel(i, c, D, N, e, d, idx)` (42 R87). -/
def decLevel (coord : List Nat) (dim n i : Nat) (c : DecCarry) : DecCarry :=
  let l := gatherBits dim (n - i - 1) coord
  let w := grayDecode (c.orient.toCurve l dim)
  { orient := c.orient.update w dim
    idx := (c.idx <<< dim) ||| w }

/-- The levels 0 .. N−1 of DECODE from index 0 and (e, d) = (0, 0) (42 R88, 41 R74). -/
def decLevels (coord : List Nat) (dim n : Nat) : DecCarry :=
  (List.range n).foldl (fun c i => decLevel coord dim n i c) { orient := Orientation.initial, idx := 0 }

/-- Some component j < D is at or above 2^N (42 R88, 60 R95). -/
def coordOutOfRange (coord : List Nat) (dim n : Nat) : Bool :=
  (List.range dim).any fun j => decide (coord.getD j 0 ≥ 2 ^ n)

/-- DECODE (42 R88). -/
def execDecode (l : Nat) (s : State) : StepOutcome :=
  if s.cfg.valid = false then raise .invalidSpec s
  else if l ≠ s.curveD then raise .dimensionMismatch s
  else if coordOutOfRange s.inLanes s.curveD s.curveN then raise .coordinateOutOfRange s
  else respond .ok (decLevels s.inLanes s.curveD s.curveN).idx (zeroCoord s.params) s

end Sys2Proof.Machine
end

