-- ==== Sys2Proof/Machine/Dispatch.lean ====
section
/-! DEFINITION. One arm for each command: the meaning of its acceptance (10 R30). -/

namespace Sys2Proof.Machine

def exec (i : Instr) (s : State) : Host.Outcome State Fault Refusal :=
  match i with
  | .config d n => Sys2Proof.Machine.execConfig d n s
  | .encode => Sys2Proof.Machine.execEncode s
  | .decode l => Sys2Proof.Machine.execDecode l s
  | .bitrange width start stop => Sys2Proof.Machine.execBitrange width start stop s
  | .rotl width amount => Sys2Proof.Machine.execRotl width amount s
  | .rotr width amount => Sys2Proof.Machine.execRotr width amount s
  | .grayenc => Sys2Proof.Machine.execGrayenc s
  | .graydec => Sys2Proof.Machine.execGraydec s
  | .tsb width => Sys2Proof.Machine.execTsb width s

end Sys2Proof.Machine
end

