-- ==== Sys2Proof/Machine/Step.lean ====
section
/-! DEFINITION. One step: one rising edge of `clk` (70 R114, R110; 10 R30). -/

namespace Sys2Proof.Machine

/-- The acceptance of the command on the input ports (10 R30): decoded (30 R55), then executed; an illegal word is answered
with IllegalCommand. -/
def accept (s : State) : Host.Outcome State Fault Refusal :=
  match decodeWord s.inCommand.word with
  | .ok i => exec i s
  | .error _ => acceptIllegal s

/-- One rising edge of `clk`. A host that breaks a duty of 70 R112 or R115 is refused. At a reset edge nothing is
transferred (70 R110). Otherwise the input channel and the output channel each transfer or not, independently (70 R114). -/
def step (s : State) : Host.Outcome State Fault Refusal :=
  match s.hostRefusal with
  | some r => .refused r
  | none =>
    if s.edge.rst then .next s.resetEdge
    else if s.inTransfer then mapNext s.endEdge (accept s)
    else .next (s.endEdge s)

/-- `s` with the command word `w` offered at the coming edge and the device ready for it (log 5): the host drives it with a
zero payload, no reset and no earlier offer stand in the way, and `Q` has room. -/
def State.withFetchWord (s : State) (nbits w : Nat) : State :=
  { s with
    started := true
    offered := none
    stall := 0
    queue := s.queue.take (s.params.qcap - 1)
    edges := Edge.offering (tableWord nbits w) :: s.edges.tail }

end Sys2Proof.Machine
end

