-- ==== Sys2Proof/Machine/Assembler.lean ====
section
/-! DEFINITION. The assembler syntax (30 R56) and the pseudo-sequence ENUMERATE (30 R57): a line of text, the line as a term
with its payload, and the command it puts on the ports. -/

namespace Sys2Proof.Machine

/-! ## Lines -/

/-- One assembler line, its operands in the order of 30 R56, the payload among them. -/
inductive AsmLine where
  | config (d n : Nat)
  | encode (idx : Nat)
  | decode (l : Nat) (coord : List Nat)
  | bitrange (x width start stop : Nat)
  | rotl (x amount width : Nat)
  | rotr (x amount width : Nat)
  | grayenc (x : Nat)
  | graydec (x : Nat)
  | tsb (x width : Nat)
  deriving DecidableEq, Repr

/-- The command of a line; ROTL and ROTR write `amount` before `width` in a line and `width` in FA (30 R49, R56). -/
def AsmLine.instr : AsmLine → Instr
  | .config d n => .config d n
  | .encode _ => .encode
  | .decode l _ => .decode l
  | .bitrange _ width start stop => .bitrange width start stop
  | .rotl _ amount width => .rotl width amount
  | .rotr _ amount width => .rotr width amount
  | .grayenc _ => .grayenc
  | .graydec _ => .graydec
  | .tsb _ width => .tsb width

/-- The scalar payload of a line; 0 where it has none. -/
def AsmLine.data : AsmLine → Nat
  | .config _ _ => 0
  | .encode idx => idx
  | .decode _ _ => 0
  | .bitrange x _ _ _ => x
  | .rotl x _ _ => x
  | .rotr x _ _ => x
  | .grayenc x => x
  | .graydec x => x
  | .tsb x _ => x

/-- The coordinate payload of a line; empty where it has none. -/
def AsmLine.coord : AsmLine → List Nat
  | .config _ _ => []
  | .encode _ => []
  | .decode _ coord => coord
  | .bitrange _ _ _ _ => []
  | .rotl _ _ _ => []
  | .rotr _ _ _ => []
  | .grayenc _ => []
  | .graydec _ => []
  | .tsb _ _ => []

/-- A DECODE line's list "must have exactly L entries" (30 R56). -/
def AsmLine.lengthOk : AsmLine → Bool
  | .config _ _ => true
  | .encode _ => true
  | .decode l coord => coord.length == l
  | .bitrange _ _ _ _ => true
  | .rotl _ _ _ => true
  | .rotr _ _ _ => true
  | .grayenc _ => true
  | .graydec _ => true
  | .tsb _ _ => true

/-- Every value of the line fits: fields in 8 bits, payload values in IW bits (30 R56), and no more components than lanes
(log 11). -/
def AsmLine.fits (p : Params) (a : AsmLine) : Bool :=
  a.instr.wf && a.lengthOk && decide (a.data < 2 ^ p.iw) && decide (a.coord.length ≤ p.dmax) &&
    a.coord.all fun c => decide (c < 2 ^ p.iw)

/-- The command a line puts on the ports; "The assembler refuses a line whose value does not fit; it does not truncate"
(30 R56). -/
def assemble (p : Params) (a : AsmLine) : Option Command :=
  if a.fits p then
    some { word := encodeWord a.instr, data := a.data, coord := packLanes p.iw a.coord }
  else none

/-- `ENUMERATE D, N` (30 R57): CONFIG D, N, then ENCODE 0 … ENCODE 2^(N·D) − 1. DESIGN CHOICE (log 11): the expansion is a
function of the numbers D and N, and not of a line of text. -/
def enumerateLines (d n : Nat) : List AsmLine :=
  .config d n :: (List.range (2 ^ (n * d))).map .encode

/-! ## Text -/

/-- The tokens of a line. -/
inductive Token where
  | word (letters : List Char)
  | num (value : Nat)
  | comma
  | lbrace
  | rbrace
  deriving DecidableEq, Repr

/-- What the scanner is in the middle of. -/
inductive Scan where
  | gap
  | letters (seen : List Char)
  | zero
  | decimal (value : Nat)
  | hexStart
  | hex (value : Nat)
  deriving DecidableEq, Repr

def isUpperLetter (c : Char) : Bool := decide (65 ≤ c.toNat) && decide (c.toNat ≤ 90)

def digitValue (c : Char) : Option Nat :=
  if 48 ≤ c.toNat ∧ c.toNat ≤ 57 then some (c.toNat - 48) else none

def hexValue (c : Char) : Option Nat :=
  if 65 ≤ c.toNat ∧ c.toNat ≤ 70 then some (c.toNat - 55)
  else if 97 ≤ c.toNat ∧ c.toNat ≤ 102 then some (c.toNat - 87)
  else digitValue c

/-- The token a scan ends in: none inside `0x` without a digit; no token in a gap. -/
def Scan.close : Scan → Option (List Token)
  | .gap => some []
  | .letters seen => some [.word seen.reverse]
  | .zero => some [.num 0]
  | .decimal value => some [.num value]
  | .hexStart => none
  | .hex value => some [.num value]

/-- A space, a comma or a brace: what may follow a finished token. -/
def punctuation (c : Char) : Option (List Token) :=
  if c.toNat = 32 then some []
  else if c.toNat = 44 then some [.comma]
  else if c.toNat = 123 then some [.lbrace]
  else if c.toNat = 125 then some [.rbrace]
  else none

/-- A character that goes on with what the scanner is in the middle of. -/
def Scan.extend (st : Scan) (c : Char) : Option Scan :=
  match st with
  | .gap =>
    if isUpperLetter c then some (.letters [c])
    else if c.toNat = 48 then some .zero
    else (digitValue c).map .decimal
  | .letters seen => if isUpperLetter c then some (.letters (c :: seen)) else none
  | .zero => if c.toNat = 120 then some .hexStart else (digitValue c).map .decimal
  | .decimal value => (digitValue c).map fun v => .decimal (10 * value + v)
  | .hexStart => (hexValue c).map .hex
  | .hex value => (hexValue c).map fun v => .hex (16 * value + v)

/-- The tokens of a text; none where a character has no place. -/
def tokens : Scan → List Char → Option (List Token)
  | st, [] => st.close
  | st, c :: cs =>
    match st.extend c with
    | some st' => tokens st' cs
    | none =>
      match st.close, punctuation c, tokens .gap cs with
      | some before, some here, some after => some (before ++ here ++ after)
      | _, _, _ => none

/-- Numbers separated by commas, one or more. -/
def numList : List Token → Option (List Nat)
  | [.num v] => some [v]
  | .num v :: .comma :: rest => (numList rest).map (v :: ·)
  | _ => none

/-- Operands separated by commas, none or more. -/
def operands : List Token → Option (List Nat)
  | [] => some []
  | ts => numList ts

/-- The operands of DECODE: L, then the list in braces. -/
def decodeOperands : List Token → Option (Nat × List Nat)
  | .num l :: .comma :: .lbrace :: rest =>
    match rest.reverse with
    | .rbrace :: inner => (operands inner.reverse).map (l, ·)
    | _ => none
  | _ => none

/-- The line of a mnemonic other than DECODE and its operands (30 R56). -/
def plainLine (name : List Char) (ops : List Nat) : Option AsmLine :=
  if name = ['C', 'O', 'N', 'F', 'I', 'G'] then
    match ops with
    | [d, n] => some (.config d n)
    | _ => none
  else if name = ['E', 'N', 'C', 'O', 'D', 'E'] then
    match ops with
    | [idx] => some (.encode idx)
    | _ => none
  else if name = ['B', 'I', 'T', 'R', 'A', 'N', 'G', 'E'] then
    match ops with
    | [x, width, start, stop] => some (.bitrange x width start stop)
    | _ => none
  else if name = ['R', 'O', 'T', 'L'] then
    match ops with
    | [x, amount, width] => some (.rotl x amount width)
    | _ => none
  else if name = ['R', 'O', 'T', 'R'] then
    match ops with
    | [x, amount, width] => some (.rotr x amount width)
    | _ => none
  else if name = ['G', 'R', 'A', 'Y', 'E', 'N', 'C'] then
    match ops with
    | [x] => some (.grayenc x)
    | _ => none
  else if name = ['G', 'R', 'A', 'Y', 'D', 'E', 'C'] then
    match ops with
    | [x] => some (.graydec x)
    | _ => none
  else if name = ['T', 'S', 'B'] then
    match ops with
    | [x, width] => some (.tsb x width)
    | _ => none
  else none

/-- The line the tokens spell. -/
def lineOf : List Token → Option AsmLine
  | .word name :: rest =>
    if name = ['D', 'E', 'C', 'O', 'D', 'E'] then (decodeOperands rest).map fun q => .decode q.1 q.2
    else (operands rest).bind (plainLine name)
  | _ => none

/-- The line a text spells, one of the nine of 30 R56. DESIGN CHOICE (log 11): the spec does not say whether the text
`ENUMERATE D, N` is itself a line the assembler reads, and this reader refuses it. -/
def parseLine (text : List Char) : Option AsmLine := (tokens .gap text).bind lineOf

end Sys2Proof.Machine
end

