-- ==== Sys2Proof/Machine/Pipeline.lean ====
section
/-! DEFINITION. The reference structure of the converters (42 R90): the checks, then a chain of IW level stages, in which a
stage s < N does the work of level s, and a stage s ≥ N, or one that gets a failed command, passes its input through. A model
needs no stages ("It can evaluate each command at its acceptance"); the chain is here so that the two can be stated to be
equal. -/

namespace Sys2Proof.Machine

/-! ## ENCODE -/

/-- What an ENCODE stage carries: the status, {idx, D, N}, and {coord so far, e, d}. -/
structure EncStage where
  status : Status
  idx : Nat
  dim : Nat
  n : Nat
  carry : EncCarry
  deriving DecidableEq, Repr

/-- The input of stage 0: the checks of 42 R85 have been made. -/
def EncStage.input (p : Params) (cfg : CurveConfig) (idx : Nat) : EncStage :=
  { status :=
      if cfg.valid = false then .invalidSpec
      else if idx ≥ 2 ^ (cfg.n.toNat * cfg.d.toNat) then .indexOutOfRange
      else .ok
    idx := idx
    dim := cfg.d.toNat
    n := cfg.n.toNat
    carry := { orient := Orientation.initial, coord := zeroCoord p } }

/-- ENCODE stage s. -/
def EncStage.next (x : EncStage) (s : Nat) : EncStage :=
  if x.status = .ok ∧ s < x.n then { x with carry := encLevel x.idx x.dim x.n s x.carry } else x

/-- The response that leaves the chain of the ENCODE stages 0 .. IW−1. -/
def encPipeline (p : Params) (cfg : CurveConfig) (idx : Nat) : Response :=
  let out := (List.range p.iw).foldl EncStage.next (EncStage.input p cfg idx)
  { status := out.status, data := 0, coord := out.carry.coord }

/-! ## DECODE -/

/-- What a DECODE stage carries: the status, {c, D, N}, and {idx so far, e, d}. -/
structure DecStage where
  status : Status
  coord : List Nat
  dim : Nat
  n : Nat
  carry : DecCarry
  deriving DecidableEq, Repr

/-- The input of stage 0: the checks of 42 R88 have been made. -/
def DecStage.input (cfg : CurveConfig) (l : Nat) (coord : List Nat) : DecStage :=
  { status :=
      if cfg.valid = false then .invalidSpec
      else if l ≠ cfg.d.toNat then .dimensionMismatch
      else if coordOutOfRange coord cfg.d.toNat cfg.n.toNat then .coordinateOutOfRange
      else .ok
    coord := coord
    dim := cfg.d.toNat
    n := cfg.n.toNat
    carry := { orient := Orientation.initial, idx := 0 } }

/-- DECODE stage s. -/
def DecStage.next (x : DecStage) (s : Nat) : DecStage :=
  if x.status = .ok ∧ s < x.n then { x with carry := decLevel x.coord x.dim x.n s x.carry } else x

/-- The response that leaves the chain of the DECODE stages 0 .. IW−1. -/
def decPipeline (p : Params) (cfg : CurveConfig) (l : Nat) (coord : List Nat) : Response :=
  let out := (List.range p.iw).foldl DecStage.next (DecStage.input cfg l coord)
  { status := out.status, data := out.carry.idx, coord := zeroCoord p }

end Sys2Proof.Machine
end

