-- ==== Sys2Proof/Safety.lean ====
section
/-! DEFINITION. What the statements are said in: the legal states, the response of an acceptance, and the record of a run. -/

namespace Sys2Proof.Machine

/-! ## Legal states -/

/-- The legal values of `cfg` (10 R20). -/
def CurveConfig.Legal (p : Params) (c : CurveConfig) : Prop :=
  c.valid = true → 1 ≤ c.d.toNat ∧ c.d.toNat ≤ p.dmax ∧ c.n.toNat * c.d.toNat ≤ p.iw

/-- A CurveSpec is in force and legal (10 R20, 42 R81). -/
def State.Configured (s : State) : Prop :=
  s.cfg.valid = true ∧ 1 ≤ s.curveD ∧ s.curveD ≤ s.params.dmax ∧ s.curveN * s.curveD ≤ s.params.iw

/-- A response record has the widths of 10 R26, and an error response carries nothing (60 R99). -/
structure Response.Fits (p : Params) (r : Response) : Prop where
  data : r.data < 2 ^ p.iw
  lanes : r.coord.length = p.dmax
  lane : ∀ c ∈ r.coord, c < 2 ^ p.iw
  error : r.failed = true → r.data = 0 ∧ r.coord = zeroCoord p

/-- The invariant of the machine: legal parameters (00 R7, R8), and after the first reset a legal `cfg` (10 R20), at most
QCAP entries of the right widths in `Q` (10 R26), and bounded waits (70 R117, R118). -/
structure State.Inv (s : State) : Prop where
  params : s.params.Legal
  cfg : s.started = true → s.cfg.Legal s.params
  room : s.started = true → s.queue.length ≤ s.params.qcap
  fits : s.started = true → ∀ e ∈ s.queue, e.resp.Fits s.params ∧ e.wait < s.params.lat
  stall : s.started = true → s.stall ≤ s.params.stallMax

/-! ## Responses of a state -/

/-- The responses owed, the next to be delivered first. -/
def State.responses (s : State) : List Response := s.queue.map Entry.resp

/-- The response accepted last. -/
def State.lastResponse (s : State) : Option Response := s.responses.getLast?

/-- The response the coming edge delivers, as a list of at most one. -/
def State.deliveredNow (s : State) : List Response := if s.outTransfer then s.responses.take 1 else []

/-- The command the coming edge accepts, as a list of at most one. -/
def State.acceptedNow (s : State) : List Command := if s.inTransfer then [s.inCommand] else []

/-! ## The abstract converter (20 R41, R42) -/

/-- A machine with nothing but the given parameters, `cfg` and offered command. -/
def State.bare (p : Params) (cfg : CurveConfig) (c : Command) : State :=
  { State.resetWith p with
    cfg := cfg
    edges := [{ rst := false, inValid := true, cmd := c, outReady := false, latency := 1, stall := 0 }] }

/-- The response to a command under a configuration, and the configuration it leaves, computed on a machine that has
nothing else. -/
def replyTo (p : Params) (cfg : CurveConfig) (c : Command) : Option (Response × CurveConfig) :=
  match accept (State.bare p cfg c) with
  | .next t => t.lastResponse.map (·, t.cfg)
  | .fault _ => none
  | .refused _ => none

/-- The responses to a sequence of commands, each under the configuration its predecessors leave, and the configuration at
the end. -/
def repliesTo (p : Params) : CurveConfig → List Command → Option (List Response × CurveConfig)
  | cfg, [] => some ([], cfg)
  | cfg, c :: cs =>
    (replyTo p cfg c).bind fun q => (repliesTo p q.2 cs).map fun rest => (q.1 :: rest.1, rest.2)

/-- What a response may depend on (20 R42, 30 R49, 40 R66): two states that agree on it get the same response to `i`.
CONFIG reads no payload and no `cfg`; ENCODE reads `cfg` and `in_data`; DECODE L reads `cfg` and the lanes below L; the
primitive commands read `in_data`. -/
def agreeFor (i : Instr) (s u : State) : Prop :=
  match i with
  | .config _ _ => True
  | .encode => s.cfg = u.cfg ∧ s.inData = u.inData
  | .decode l => s.cfg = u.cfg ∧ ∀ j < l, s.inLane j = u.inLane j
  | .bitrange _ _ _ => s.inData = u.inData
  | .rotl _ _ => s.inData = u.inData
  | .rotr _ _ => s.inData = u.inData
  | .grayenc => s.inData = u.inData
  | .graydec => s.inData = u.inData
  | .tsb _ => s.inData = u.inData

/-! ## The record of a run -/

/-- What a run of edges has accepted and delivered, in order, and the state it ends in. -/
structure Record where
  accepted : List Command
  delivered : List Response
  final : State
  deriving DecidableEq, Repr

/-- The record of `k` edges; none when one of them is refused. -/
def State.record : Nat → State → Option Record
  | 0, s => some { accepted := [], delivered := [], final := s }
  | k + 1, s =>
    match step s with
    | .next t =>
      (State.record k t).map fun r =>
        { accepted := s.acceptedNow ++ r.accepted
          delivered := s.deliveredNow ++ r.delivered
          final := r.final }
    | .fault _ => none
    | .refused _ => none

end Sys2Proof.Machine
end

