-- ==== Sys2Proof/Certificates/Slice0/Obligations.lean ====
section
/-! DEFINITION. The statements for the provers. Each docstring names the rules it formalises. -/

open Sys2Proof Sys2Proof.Machine

/-! ## The command word -/

/-- 30 R48, R49, R55: the decoder gives back every well-formed command from its word. -/
def Obligations.DecodeOfEncodeIsIdentity : Prop :=
  ∀ i : Instr, i.wf = true → decodeWord (encodeWord i) = .ok i

/-- 30 R48, R49, R55: a word that decodes is the word of the command it decodes to, and that command is well-formed. -/
def Obligations.EncodeOfDecodeIsIdentity : Prop :=
  ∀ (w : CmdWord) (i : Instr), decodeWord w = .ok i → i.wf = true ∧ encodeWord i = w

/-- 30 R54: every word is a legal command of the opcode table or an illegal one, and no word is two commands. -/
def Obligations.DecoderAcceptsExactlyTheOpcodeTable : Prop :=
  ∀ w : CmdWord,
    ((∃ i, decodeWord w = .ok i) ↔ ∃ r ∈ opcodeTable, r.accepts w = true) ∧
    ∀ r₁ ∈ opcodeTable, ∀ r₂ ∈ opcodeTable, r₁.accepts w = true → r₂.accepts w = true → r₁ = r₂

/-- 30 R48 to R50, R56: words written out from the encoding tables decode to the commands they stand for. -/
def Obligations.WrittenOutWordsDecode : Prop :=
  decodeWord 0x00010201#32 = .ok (.config 2 1) ∧
  decodeWord 0x00000002#32 = .ok .encode ∧
  decodeWord 0x00000203#32 = .ok (.decode 2) ∧
  decodeWord 0x06020804#32 = .ok (.bitrange 8 2 6) ∧
  decodeWord 0x00050405#32 = .ok (.rotl 4 5) ∧
  decodeWord 0x00010406#32 = .ok (.rotr 4 1) ∧
  decodeWord 0x00000007#32 = .ok .grayenc ∧
  decodeWord 0x00000008#32 = .ok .graydec ∧
  decodeWord 0x00000409#32 = .ok (.tsb 4)

/-- 30 R51, R52, R53, 60 R97: a nonzero RSV field, a reserved opcode, or a nonzero must-be-zero field is answered with
IllegalCommand, and nothing else changes. -/
def Obligations.IllegalWordsAreAnswered : Prop :=
  ∀ (s : State) (w : CmdWord), s.inCommand.word = w →
    (w &&& 0x000000F0#32 ≠ 0#32 ∨
      w &&& 0x0000000F#32 = 0x0#32 ∨
      0xA#32 ≤ w &&& 0x0000000F#32 ∨
      ∃ q ∈ [(0x1#32, 0xFF000000#32), (0x2#32, 0xFFFFFF00#32), (0x3#32, 0xFFFF0000#32), (0x5#32, 0xFF000000#32),
          (0x6#32, 0xFF000000#32), (0x7#32, 0xFFFFFF00#32), (0x8#32, 0xFFFFFF00#32), (0x9#32, 0xFFFF0000#32)],
        w &&& 0x0000000F#32 = q.1 ∧ w &&& q.2 ≠ 0#32) →
    accept s = .next (s.answered ⟨.illegalCommand, 0, zeroCoord s.params⟩)

/-! ## One edge -/

/-- 10 R30, 70 R114: at an edge out of reset at which the input channel transfers a command, the step is the acceptance of
the decoded command, followed by the end of the edge. -/
def Obligations.StepRunsTheDecodedCommand : Prop :=
  ∀ (s : State) (i : Instr), s.hostRefusal = none → s.edge.rst = false → s.edge.inValid = true → s.inReady = true →
    decodeWord s.inCommand.word = .ok i →
    ∃ t, exec i s = .next t ∧ step s = .next (s.endEdge t)

/-- Log 5 (the model's choice): a command word placed by withFetchWord is the very next command the step runs. -/
def Obligations.PlacedCommandRunsNext : Prop :=
  ∀ (s : State) (i : Instr), 1 ≤ s.params.qcap → i.wf = true →
    ∃ t, exec i (s.withFetchWord 32 (encodeWord i).toNat) = .next t ∧
      step (s.withFetchWord 32 (encodeWord i).toNat) =
        .next ((s.withFetchWord 32 (encodeWord i).toNat).endEdge t)

/-- 10 R30, 70 R114: out of reset, an edge appends the response of the command it accepts, if any, removes the head of `Q`
if it delivers it, and does the two independently; `cfg` changes only with an acceptance. -/
def Obligations.TransfersAreIndependent : Prop :=
  ∀ s t : State, s.edge.rst = false → step s = .next t →
    t.params = s.params ∧ t.started = s.started ∧ t.edges = s.edges.tail ∧
    (s.inTransfer = false →
      t.cfg = s.cfg ∧ t.responses = if s.outTransfer then s.responses.tail else s.responses) ∧
    (s.inTransfer = true →
      ∃ u r, accept s = .next u ∧ u.responses = s.responses ++ [r] ∧ t.cfg = u.cfg ∧
        t.responses = (if s.outTransfer then s.responses.tail else s.responses) ++ [r])

/-- 10 R23: `err_sticky` is set by the delivery of a response with a nonzero status, cleared only by reset, and driven on the
output port of that name. -/
def Obligations.ErrStickyFollowsDeliveries : Prop :=
  ∀ s t : State, step s = .next t →
    (s.edge.rst = true → t.errSticky = false) ∧
    (s.edge.rst = false →
      (t.errSticky = true ↔
        s.errSticky = true ∨ s.edge.outReady = true ∧ ∃ r, s.outResponse = some r ∧ r.status.code ≠ 0#4)) ∧
    (t.started = true → ∃ o, t.outputs = some o ∧ o.errSticky = t.errSticky)

/-- 70 R110: every reset edge clears `cfg`, `err_sticky` and `Q`, and transfers nothing, except in a run in which the host
does not hold an offered command there. The exception, and its refusal, are the model's reading of R115, that a reset edge
does not end the host's duty (log 8, DEDUCED). -/
def Obligations.ResetEdgeClears : Prop :=
  ∀ s : State, s.edge.rst = true →
    s.inTransfer = false ∧ s.outTransfer = false ∧
    ((∀ c, s.offered = some c → s.edge.inValid = true ∧ s.inCommand = c) →
      ∃ t, step s = .next t ∧ t.cfg = ⟨false, 0#8, 0#8⟩ ∧ t.errSticky = false ∧ t.queue = [] ∧ t.started = true ∧
        t.params = s.params) ∧
    (∀ c, s.offered = some c → ¬ (s.edge.inValid = true ∧ s.inCommand = c) → step s = .refused .commandNotHeld)

/-- 10 R21, R23, R26, R31: the state after reset, for every legal choice of the parameters; it satisfies the invariant. The
values of the fields that R31 does not name are log 4's and not claimed here. -/
def Obligations.ResetStateIsLegal : Prop :=
  ∀ p : Params, p.Legal →
    (State.resetWith p).cfg = ⟨false, 0#8, 0#8⟩ ∧ (State.resetWith p).errSticky = false ∧
    (State.resetWith p).queue = [] ∧ (State.resetWith p).outValid = false ∧ (State.resetWith p).Inv ∧
    State.reset = State.resetWith Params.reference ∧ State.reset.Inv

/-- 70 R112: a run that issues a command before the first reset is refused. Any other edge before it, where no offer
stands, has a next state: that clause is the model's choice (log 7). -/
def Obligations.CommandBeforeResetIsRefused : Prop :=
  ∀ s : State, s.started = false → s.edge.rst = false →
    (s.edge.inValid = true → step s = .refused .commandBeforeReset) ∧
    (s.edge.inValid = false → s.offered = none → ∃ t, step s = .next t ∧ t.started = false ∧ t.offered = none)

/-- 70 R115: a command offered at an edge and not transferred there must stand unchanged at the next edge, or the run is
refused; a host that has no such command may drive what it likes; `in_ready` does not wait for `in_valid`. That the duty
binds across reset edges, be either of the two edges one or not, is the model's reading of R115 (log 8, DEDUCED). -/
def Obligations.OfferedCommandIsHeld : Prop :=
  ∀ s : State,
    (∀ b, State.inReady { s with edges := { s.edge with inValid := b } :: s.edges.tail } = s.inReady) ∧
    ∀ t, step s = .next t → t.started = true →
      (s.edge.inValid = true ∧ s.inTransfer = false →
        (t.edge.inValid = true ∧ t.inCommand = s.inCommand → ∃ u, step t = .next u) ∧
        (¬ (t.edge.inValid = true ∧ t.inCommand = s.inCommand) → step t = .refused .commandNotHeld)) ∧
      (s.edge.inValid = false ∨ s.inTransfer = true → ∃ u, step t = .next u)

/-- 70 R116: out of reset `out_valid` is 1 exactly when `Q` has a head whose result is available, the values presented are
those of the head, and a presented response stays until it is transferred. -/
def Obligations.PresentedResponseIsHeld : Prop :=
  ∀ s : State,
    (s.queue = [] → s.outValid = false) ∧
    (s.started = true → s.edge.rst = false →
      (s.outValid = true ↔ ∃ e rest, s.queue = e :: rest ∧ e.wait = 0)) ∧
    ∀ r, s.outResponse = some r →
      s.responses.head? = some r ∧
      ∀ t, s.edge.outReady = false → step s = .next t → t.edge.rst = false → t.outResponse = some r

/-- 70 R111, R117: `in_ready` is 0 in reset and on a full `Q`. The bounded wait of R117 is a count of edges in this model
(log 3, the model's choice): out of reset with room in `Q`, `in_ready` is 1 or the edges it stays 0, of which there are at
most `stallMax` (log 1), become one fewer. -/
def Obligations.InReadyComesBack : Prop :=
  ∀ s : State,
    (s.edge.rst = true ∨ s.params.qcap ≤ s.queue.length → s.inReady = false) ∧
    ∀ t, s.Inv → s.started = true → s.edge.rst = false → s.queue.length < s.params.qcap → step s = .next t →
      s.stall ≤ s.params.stallMax ∧ (s.inReady = true ∨ t.stall + 1 = s.stall)

/-- 70 R118, 00 R8: a command accepted at an edge has its result available between 1 and LAT edges later. That each entry of
`Q` carries a count of edges, which falls by one at each edge, is the model's choice (log 3): R118 has a choice under weak
fairness. -/
def Obligations.LatencyIsBounded : Prop :=
  ∀ s t : State, s.params.Legal → s.edge.rst = false → step s = .next t →
    1 ≤ s.latency ∧ s.latency ≤ s.params.lat ∧
    t.queue.map Entry.wait =
      ((if s.outTransfer then s.queue.tail else s.queue).map Entry.wait ++
        (if s.inTransfer then [s.latency] else [])).map (· - 1)

/-- 10 R20, R26, 60 R99: every step keeps the invariant: legal parameters and `cfg`, at most QCAP responses of the right
widths, no error response with data, bounded waits. -/
def Obligations.EveryStepKeepsTheInvariant : Prop :=
  ∀ s t : State, s.Inv → step s = .next t → t.Inv

/-- 20 R39, R40, R41, R42: over any run of edges without reset, what is delivered and what is still owed are, in order, what
was owed before and the answers to the accepted commands, each computed from its command and the configuration its
predecessors leave; `err_sticky` tells whether a failure was delivered. -/
def Obligations.ResponsesLeaveInCommandOrder : Prop :=
  ∀ (k : Nat) (s : State) (rec : Record), s.started = true → (∀ e ∈ s.edges.take k, e.rst = false) →
    s.record k = some rec →
    ∃ replies, repliesTo s.params s.cfg rec.accepted = some (replies, rec.final.cfg) ∧
      s.responses ++ replies = rec.delivered ++ rec.final.responses ∧
      rec.final.errSticky = (s.errSticky || rec.delivered.any Response.failed)

/-! ## Every command -/

/-- 10 R30, 20 R40: every command completes, with exactly one response at the end of `Q`; beside it only `cfg` can change,
and only by a CONFIG. -/
def Obligations.EveryCommandIsAnsweredOnce : Prop :=
  ∀ (i : Instr) (s : State),
    ∃ t r, exec i s = .next t ∧ t.queue = s.queue ++ [⟨r, s.latency⟩] ∧
      t.params = s.params ∧ t.errSticky = s.errSticky ∧ t.started = s.started ∧ t.offered = s.offered ∧
      t.stall = s.stall ∧ t.edges = s.edges ∧ t.tick = s.tick ∧
      ((∀ d n, i ≠ .config d n) → t.cfg = s.cfg)

/-- 60 R99: a failed command, be its word legal or not, responds with data 0 and coord ZERO, and changes nothing beside. -/
def Obligations.FailureLeavesNoTrace : Prop :=
  ∀ (i : Instr) (s t : State) (r : Response), exec i s = .next t ∨ accept s = .next t →
    t.lastResponse = some r → r.status.code ≠ 0#4 →
    r.data = 0 ∧ r.coord = List.replicate s.params.dmax 0 ∧ t.cfg = s.cfg ∧ t = s.answered r

/-- 20 R42, 30 R49, 40 R66: a response depends on the command, the payload it uses and, for ENCODE and DECODE, `cfg`, on
hardware of one IW and DMAX; not on LAT, QCAP, `Q`, or the ports of the output channel. -/
def Obligations.ResponseDependsOnlyOnCommandAndCfg : Prop :=
  ∀ (i : Instr) (s u : State), s.params.width = u.params.width → s.params.dmax = u.params.dmax → agreeFor i s u →
    ∃ r t v, exec i s = .next t ∧ exec i u = .next v ∧
      t.responses = s.responses ++ [r] ∧ v.responses = u.responses ++ [r] ∧
      (t.cfg = s.cfg ∧ v.cfg = u.cfg ∨ t.cfg = v.cfg)

/-! ## CONFIG, ENCODE, DECODE -/

/-- 42 R81, R82: CONFIG D, N. -/
def Obligations.ConfigSetsTheCurveSpec : Prop :=
  ∀ (d n : Nat) (s : State), d < 256 → n < 256 →
    decodeWord (BitVec.ofNat 32 (0x1 + 2 ^ 8 * d + 2 ^ 16 * n)) = .ok (.config d n) ∧
    (1 ≤ d ∧ d ≤ s.params.dmax ∧ n * d ≤ s.params.iw →
      ∃ t, exec (.config d n) s = .next t ∧ t.cfg.valid = true ∧ t.cfg.d.toNat = d ∧ t.cfg.n.toNat = n ∧
        t.queue = s.queue ++ [⟨⟨.ok, 0, zeroCoord s.params⟩, s.latency⟩]) ∧
    (¬ (1 ≤ d ∧ d ≤ s.params.dmax ∧ n * d ≤ s.params.iw) →
      exec (.config d n) s = .next (s.answered ⟨.invalidSpec, 0, zeroCoord s.params⟩))

/-- 42 R85, R90: ENCODE fails with InvalidSpec or IndexOutOfRange, and otherwise succeeds; in every case its response is the
one that leaves the reference chain of IW level stages. -/
def Obligations.EncodeFollowsTheStageChain : Prop :=
  ∀ s : State, s.cfg.Legal s.params →
    decodeWord 0x00000002#32 = .ok .encode ∧
    (s.cfg.valid = false → exec .encode s = .next (s.answered ⟨.invalidSpec, 0, zeroCoord s.params⟩)) ∧
    (s.cfg.valid = true → 2 ^ (s.curveN * s.curveD) ≤ s.inData →
      exec .encode s = .next (s.answered ⟨.indexOutOfRange, 0, zeroCoord s.params⟩)) ∧
    (s.cfg.valid = true → s.inData < 2 ^ (s.curveN * s.curveD) →
      (encPipeline s.params s.cfg s.inData).status = .ok) ∧
    exec .encode s = .next (s.answered (encPipeline s.params s.cfg s.inData))

/-- 42 R80, R85, R86: ENCODE's coordinate has DMAX lanes; its components are below 2^N and its other lanes are 0. -/
def Obligations.EncodeStaysInTheGrid : Prop :=
  ∀ s : State, s.Configured → s.inData < 2 ^ (s.curveN * s.curveD) →
    ∃ c, exec .encode s = .next (s.answered ⟨.ok, 0, c⟩) ∧ c.length = s.params.dmax ∧
      (∀ j < s.curveD, c.getD j 0 < 2 ^ s.curveN) ∧ ∀ j ≥ s.curveD, c.getD j 0 = 0

/-- 42 R85, corner cases: index 0 is the origin for every (D, N), and for D = 1 the coordinate is the index. 42 R83 to R85,
41 R74: at level 0, where (e, d) = (0, 0), bit k of the Gray code of the top group goes to bit N − 1 of component
(k + 1) mod D, so ENCODE 1 under (2, 1) is (0, 1). -/
def Obligations.EncodeOriginAndLine : Prop :=
  ∀ s : State, s.Configured → s.inData < 2 ^ (s.curveN * s.curveD) →
    (s.inData = 0 → exec .encode s = .next (s.answered ⟨.ok, 0, zeroCoord s.params⟩)) ∧
    (s.curveD = 1 →
      exec .encode s = .next (s.answered ⟨.ok, 0, s.inData :: List.replicate (s.params.dmax - 1) 0⟩)) ∧
    (1 ≤ s.curveN →
      ∃ c, exec .encode s = .next (s.answered ⟨.ok, 0, c⟩) ∧
        ∀ k < s.curveD, (c.getD ((k + 1) % s.curveD) 0).testBit (s.curveN - 1) =
          ((s.inData / 2 ^ ((s.curveN - 1) * s.curveD)).testBit k ^^
            (s.inData / 2 ^ ((s.curveN - 1) * s.curveD)).testBit (k + 1)))

/-- 42 R83, R84, R85, 41 R74, R77: ENCODE bit by bit. The states (e i, d i) begin at (0, 0) and follow the update; at level
i, with the group w of the index, bit k of the Gray code of w, xored with the bit of e it meets, goes to bit N − 1 − i of
component (k + d i + 1) mod D. -/
def Obligations.EncodeWritesEveryLevel : Prop :=
  ∀ s : State, s.Configured → s.inData < 2 ^ (s.curveN * s.curveD) →
    ∃ (c : List Nat) (e d w : Nat → Nat),
      exec .encode s = .next (s.answered ⟨.ok, 0, c⟩) ∧ e 0 = 0 ∧ d 0 = 0 ∧
      ∀ i < s.curveN,
        w i = s.inData / 2 ^ ((s.curveN - 1 - i) * s.curveD) % 2 ^ s.curveD ∧
        d (i + 1) = (d i + direction (w i) s.curveD + 1) % s.curveD ∧
        e (i + 1) < 2 ^ s.curveD ∧
        ∀ k < s.curveD,
          (e (i + 1)).testBit ((k + d i + 1) % s.curveD) =
            ((e i).testBit ((k + d i + 1) % s.curveD) ^^ (entry (w i)).testBit k) ∧
          (c.getD ((k + d i + 1) % s.curveD) 0).testBit (s.curveN - 1 - i) =
            (((w i).testBit k ^^ (w i).testBit (k + 1)) ^^ (e i).testBit ((k + d i + 1) % s.curveD))

/-- 42 R88, R90, 60 R100: DECODE fails with the first of InvalidSpec, DimensionMismatch and CoordinateOutOfRange that
applies, and otherwise succeeds; in every case its response is the one that leaves the reference chain of IW level stages. -/
def Obligations.DecodeFollowsTheStageChain : Prop :=
  ∀ (s : State) (l : Nat), l < 256 → s.cfg.Legal s.params →
    decodeWord (BitVec.ofNat 32 (0x3 + 2 ^ 8 * l)) = .ok (.decode l) ∧
    (s.cfg.valid = false → exec (.decode l) s = .next (s.answered ⟨.invalidSpec, 0, zeroCoord s.params⟩)) ∧
    (s.cfg.valid = true → l ≠ s.curveD →
      exec (.decode l) s = .next (s.answered ⟨.dimensionMismatch, 0, zeroCoord s.params⟩)) ∧
    (s.cfg.valid = true → l = s.curveD → (∃ j < l, 2 ^ s.curveN ≤ s.inLane j) →
      exec (.decode l) s = .next (s.answered ⟨.coordinateOutOfRange, 0, zeroCoord s.params⟩)) ∧
    (s.cfg.valid = true → l = s.curveD → (∀ j < l, s.inLane j < 2 ^ s.curveN) →
      (decPipeline s.params s.cfg l s.inLanes).status = .ok) ∧
    exec (.decode l) s = .next (s.answered (decPipeline s.params s.cfg l s.inLanes))

/-- 42 R89, first half of the round trip: DECODE of the coordinate ENCODE returns gives the index back. -/
def Obligations.DecodeInvertsEncode : Prop :=
  ∀ (s u : State) (c : List Nat), s.Configured → u.params = s.params → u.cfg = s.cfg →
    s.inData < 2 ^ (s.curveN * s.curveD) → exec .encode s = .next (s.answered ⟨.ok, 0, c⟩) →
    (∀ j < s.curveD, u.inLane j = c.getD j 0) →
    exec (.decode s.curveD) u = .next (u.answered ⟨.ok, s.inData, zeroCoord s.params⟩)

/-- 42 R89, second half of the round trip: ENCODE of the index DECODE returns gives the coordinate back. -/
def Obligations.EncodeInvertsDecode : Prop :=
  ∀ (s u : State) (idx : Nat), s.Configured → u.params = s.params → u.cfg = s.cfg →
    (∀ j < s.curveD, s.inLane j < 2 ^ s.curveN) →
    exec (.decode s.curveD) s = .next (s.answered ⟨.ok, idx, zeroCoord s.params⟩) → u.inData = idx →
    ∃ c, exec .encode u = .next (u.answered ⟨.ok, 0, c⟩) ∧ ∀ j < s.curveD, c.getD j 0 = s.inLane j

/-- 42 R89, adjacency: consecutive indices map to coordinates at Chebyshev distance exactly 1. -/
def Obligations.ConsecutiveIndicesAreNeighbours : Prop :=
  ∀ (s u : State) (a b : List Nat), s.Configured → u.params = s.params → u.cfg = s.cfg →
    u.inData = s.inData + 1 → u.inData < 2 ^ (s.curveN * s.curveD) →
    exec .encode s = .next (s.answered ⟨.ok, 0, a⟩) → exec .encode u = .next (u.answered ⟨.ok, 0, b⟩) →
    (∀ j < s.curveD, a.getD j 0 ≤ b.getD j 0 + 1 ∧ b.getD j 0 ≤ a.getD j 0 + 1) ∧
    ∃ j < s.curveD, a.getD j 0 ≠ b.getD j 0

/-! ## The recurrence -/

/-- 41 R73, R75, R76, R77: the update of a legal recurrence state is legal, direction and entry are in their ranges, and
entry is the Gray code of 2·⌊(w − 1) / 2⌋, with entry(1) = entry(2) = 0. (R76's remark that entry is even contradicts its
formula and is not followed: log 15.) -/
def Obligations.UpdateKeepsTheOrientationLegal : Prop :=
  ∀ (o : Orientation) (w dim : Nat), 1 ≤ dim → o.e < 2 ^ dim → o.d < dim → w < 2 ^ dim →
    (o.update w dim).e < 2 ^ dim ∧ (o.update w dim).d < dim ∧ direction w dim < dim ∧ entry w < 2 ^ dim ∧
    entry 0 = 0 ∧ entry 1 = 0 ∧ entry 2 = 0 ∧
    (w ≠ 0 → entry w = (2 * ((w - 1) / 2)) ^^^ ((w - 1) / 2))

/-- 41 R75, 40 R65, 90 C3: at all ones the cap decides: trailingSetBits is the width, and the direction is 0. -/
def Obligations.AllOnesHasDirectionZero : Prop :=
  ∀ dim : Nat, 1 ≤ dim → trailingSetBits (2 ^ dim - 1) dim = dim ∧ direction (2 ^ dim - 1) dim = 0

/-- 41 R78, 90 C2: the two level transforms are inverse to each other. -/
def Obligations.LevelTransformsAreInverse : Prop :=
  ∀ (o : Orientation) (b dim : Nat), 1 ≤ dim → o.e < 2 ^ dim → o.d < dim → b < 2 ^ dim →
    o.toCurve (o.fromCurve b dim) dim = b ∧ o.fromCurve (o.toCurve b dim) dim = b

/-! ## The primitive commands -/

/-- 40 R58, R67: BITRANGE takes the bits x[width − 1 − start : width − end]. -/
def Obligations.BitrangeExtracts : Prop :=
  ∀ (width start stop : Nat) (s : State), width < 256 → start < 256 → stop < 256 →
    decodeWord (BitVec.ofNat 32 (0x4 + 2 ^ 8 * width + 2 ^ 16 * start + 2 ^ 24 * stop)) =
      .ok (.bitrange width start stop) ∧
    (width > s.params.iw ∨ stop > width ∨ start > stop →
      exec (.bitrange width start stop) s = .next (s.answered ⟨.illegalOperand, 0, zeroCoord s.params⟩)) ∧
    (width ≤ s.params.iw → stop ≤ width → start ≤ stop →
      exec (.bitrange width start stop) s =
        .next (s.answered ⟨.ok, s.inData / 2 ^ (width - stop) % 2 ^ (stop - start), zeroCoord s.params⟩))

/-- 40 R60, R68: ROTL moves bit k of the low `width` bits to bit (k + amount) mod width. -/
def Obligations.RotlRotatesLeft : Prop :=
  ∀ (width amount : Nat) (s : State), width < 256 → amount < 256 →
    decodeWord (BitVec.ofNat 32 (0x5 + 2 ^ 8 * width + 2 ^ 16 * amount)) = .ok (.rotl width amount) ∧
    (width = 0 ∨ width > s.params.iw →
      exec (.rotl width amount) s = .next (s.answered ⟨.illegalOperand, 0, zeroCoord s.params⟩)) ∧
    (1 ≤ width → width ≤ s.params.iw →
      ∃ r, exec (.rotl width amount) s = .next (s.answered ⟨.ok, r, zeroCoord s.params⟩) ∧ r < 2 ^ width ∧
        ∀ k < width, r.testBit ((k + amount) % width) = s.inData.testBit k)

/-- 40 R61, R69: ROTR moves bit (k + amount) mod width of the low `width` bits to bit k. -/
def Obligations.RotrRotatesRight : Prop :=
  ∀ (width amount : Nat) (s : State), width < 256 → amount < 256 →
    decodeWord (BitVec.ofNat 32 (0x6 + 2 ^ 8 * width + 2 ^ 16 * amount)) = .ok (.rotr width amount) ∧
    (width = 0 ∨ width > s.params.iw →
      exec (.rotr width amount) s = .next (s.answered ⟨.illegalOperand, 0, zeroCoord s.params⟩)) ∧
    (1 ≤ width → width ≤ s.params.iw →
      ∃ r, exec (.rotr width amount) s = .next (s.answered ⟨.ok, r, zeroCoord s.params⟩) ∧ r < 2 ^ width ∧
        ∀ k < width, r.testBit k = s.inData.testBit ((k + amount) % width))

/-- 40 R63, R70: GRAYENC xors the operand with its half, and the result has IW bits. -/
def Obligations.GrayencHalvesAndXors : Prop :=
  ∀ s : State,
    decodeWord 0x00000007#32 = .ok .grayenc ∧ s.inData ^^^ (s.inData / 2) < 2 ^ s.params.iw ∧
    exec .grayenc s = .next (s.answered ⟨.ok, s.inData ^^^ (s.inData / 2), zeroCoord s.params⟩)

/-- 40 R64, R71: GRAYDEC answers with the IW-bit number whose Gray code is the operand. -/
def Obligations.GraydecInvertsTheGrayCode : Prop :=
  ∀ s : State,
    decodeWord 0x00000008#32 = .ok .graydec ∧
    ∃ r, exec .graydec s = .next (s.answered ⟨.ok, r, zeroCoord s.params⟩) ∧ r < 2 ^ s.params.iw ∧
      r ^^^ (r / 2) = s.inData ∧ ∀ m, r.testBit m = (s.inData.testBit m ^^ r.testBit (m + 1))

/-- 40 R65, R72: TSB counts the consecutive 1 bits from bit 0, capped at the width. -/
def Obligations.TsbCountsTrailingOnes : Prop :=
  ∀ (width : Nat) (s : State), width < 256 →
    decodeWord (BitVec.ofNat 32 (0x9 + 2 ^ 8 * width)) = .ok (.tsb width) ∧
    (width > s.params.iw →
      exec (.tsb width) s = .next (s.answered ⟨.illegalOperand, 0, zeroCoord s.params⟩)) ∧
    (width ≤ s.params.iw →
      ∃ t, exec (.tsb width) s = .next (s.answered ⟨.ok, t, zeroCoord s.params⟩) ∧ t ≤ width ∧
        s.inData % 2 ^ t = 2 ^ t - 1 ∧ (t < width → s.inData.testBit t = false))

/-- 40 R62: ROTR gives back the low `width` bits that ROTL by the same amount rotated. -/
def Obligations.RotrUndoesRotl : Prop :=
  ∀ (width amount r : Nat) (s u : State), u.params = s.params → 1 ≤ width → width ≤ s.params.iw →
    exec (.rotl width amount) s = .next (s.answered ⟨.ok, r, zeroCoord s.params⟩) → u.inData = r →
    exec (.rotr width amount) u = .next (u.answered ⟨.ok, s.inData % 2 ^ width, zeroCoord s.params⟩)

/-- 40 R64, R71: GRAYDEC(GRAYENC(x)) = x for every IW-bit x. -/
def Obligations.GraydecUndoesGrayenc : Prop :=
  ∀ (r : Nat) (s u : State), u.params = s.params →
    exec .grayenc s = .next (s.answered ⟨.ok, r, zeroCoord s.params⟩) → u.inData = r →
    exec .graydec u = .next (u.answered ⟨.ok, s.inData, zeroCoord s.params⟩)

/-! ## Ports and the assembler -/

/-- 10 R24, R25, 70 R116: the output ports present the head of `Q`, component j of its coordinate in lane j. -/
def Obligations.OutputPortsCarryTheResponse : Prop :=
  ∀ (s : State) (r : Response), s.Inv → s.outResponse = some r →
    ∃ bus, s.outputs = some ⟨s.inReady, true, some (r.status.code, r.data, bus), s.errSticky⟩ ∧
      bus < 2 ^ (s.params.dmax * s.params.iw) ∧
      ∀ j < s.params.dmax, bus / 2 ^ (j * s.params.iw) % 2 ^ s.params.iw = r.coord.getD j 0

/-- 30 R56, 10 R25: a line that is assembled puts its command on the ports, uncut: the word decodes to the line's command,
`in_data` is its scalar, and the first lanes of `in_coord` are its components. -/
def Obligations.AssembledLineIsTheCommand : Prop :=
  ∀ (p : Params) (a : AsmLine) (c : Command), assemble p a = some c →
    decodeWord c.word = .ok a.instr ∧ c.sample p = c ∧ c.data = a.data ∧
    unpackLanes p.iw a.coord.length c.coord = a.coord

/-- 30 R57: ENUMERATE D, N of an accepted pair is CONFIG D, N and then ENCODE 0 to ENCODE 2^(N·D) − 1, and every line of it
is assembled. -/
def Obligations.EnumerationCoversTheDomain : Prop :=
  ∀ (p : Params) (d n : Nat), p.Legal → 1 ≤ d → d ≤ p.dmax → n * d ≤ p.iw →
    (enumerateLines d n).head? = some (.config d n) ∧
    (enumerateLines d n).length = 2 ^ (n * d) + 1 ∧
    (∀ k < 2 ^ (n * d), (enumerateLines d n)[k + 1]? = some (.encode k)) ∧
    ∀ a ∈ enumerateLines d n, ∃ c, assemble p a = some c
end

