-- ==== Sys2Proof/Laws/State.lean ====
section
/-! SUPPORT. One lemma for each field under each update of State. -/

namespace Sys2Proof.Machine

/-! ## answered: one more response in `Q` -/

@[simp] theorem State.answered_params (s : State) (r : Response) : (s.answered r).params = s.params := rfl
@[simp] theorem State.answered_cfg (s : State) (r : Response) : (s.answered r).cfg = s.cfg := rfl
@[simp] theorem State.answered_errSticky (s : State) (r : Response) : (s.answered r).errSticky = s.errSticky := rfl
@[simp] theorem State.answered_started (s : State) (r : Response) : (s.answered r).started = s.started := rfl
@[simp] theorem State.answered_offered (s : State) (r : Response) : (s.answered r).offered = s.offered := rfl
@[simp] theorem State.answered_stall (s : State) (r : Response) : (s.answered r).stall = s.stall := rfl
@[simp] theorem State.answered_edges (s : State) (r : Response) : (s.answered r).edges = s.edges := rfl
@[simp] theorem State.answered_tick (s : State) (r : Response) : (s.answered r).tick = s.tick := rfl
@[simp] theorem State.answered_queue (s : State) (r : Response) :
    (s.answered r).queue = s.queue ++ [{ resp := r, wait := s.latency }] := rfl

/-! ## deliver: the head of `Q` leaves -/

@[simp] theorem State.deliver_params (s : State) : s.deliver.params = s.params := by
  unfold State.deliver; split <;> rfl
@[simp] theorem State.deliver_cfg (s : State) : s.deliver.cfg = s.cfg := by
  unfold State.deliver; split <;> rfl
@[simp] theorem State.deliver_started (s : State) : s.deliver.started = s.started := by
  unfold State.deliver; split <;> rfl
@[simp] theorem State.deliver_queue (s : State) : s.deliver.queue = s.queue.tail := by
  unfold State.deliver; split <;> simp_all
theorem State.deliver_errSticky_cons (s : State) (e : Entry) (rest : List Entry) (h : s.queue = e :: rest) :
    s.deliver.errSticky = stickyAfter s.errSticky e.resp := by
  unfold State.deliver; simp [h]

/-! ## endEdge: the end of an edge -/

@[simp] theorem State.endEdge_params (s t : State) : (s.endEdge t).params = t.params := by
  unfold State.endEdge; split <;> simp
@[simp] theorem State.endEdge_cfg (s t : State) : (s.endEdge t).cfg = t.cfg := by
  unfold State.endEdge; split <;> simp
@[simp] theorem State.endEdge_started (s t : State) : (s.endEdge t).started = t.started := by
  unfold State.endEdge; split <;> simp
@[simp] theorem State.endEdge_stall (s t : State) : (s.endEdge t).stall = s.nextStall := rfl
@[simp] theorem State.endEdge_offered (s t : State) : (s.endEdge t).offered = s.nextOffered := rfl
@[simp] theorem State.endEdge_edges (s t : State) : (s.endEdge t).edges = s.edges.tail := rfl
@[simp] theorem State.endEdge_tick (s t : State) : (s.endEdge t).tick = s.tick + 1 := rfl
theorem State.endEdge_queue (s t : State) :
    (s.endEdge t).queue = (if s.outTransfer then t.queue.tail else t.queue).map Entry.age := by
  unfold State.endEdge; split <;> simp
theorem State.endEdge_errSticky (s t : State) :
    (s.endEdge t).errSticky = if s.outTransfer then t.deliver.errSticky else t.errSticky := by
  unfold State.endEdge; split <;> rfl

/-! ## resetEdge: a reset edge -/

@[simp] theorem State.resetEdge_params (s : State) : s.resetEdge.params = s.params := rfl
@[simp] theorem State.resetEdge_cfg (s : State) : s.resetEdge.cfg = CurveConfig.reset := rfl
@[simp] theorem State.resetEdge_errSticky (s : State) : s.resetEdge.errSticky = false := rfl
@[simp] theorem State.resetEdge_queue (s : State) : s.resetEdge.queue = [] := rfl
@[simp] theorem State.resetEdge_started (s : State) : s.resetEdge.started = true := rfl
@[simp] theorem State.resetEdge_offered (s : State) : s.resetEdge.offered = s.nextOffered := rfl
@[simp] theorem State.resetEdge_stall (s : State) : s.resetEdge.stall = s.chosenStall := rfl
@[simp] theorem State.resetEdge_edges (s : State) : s.resetEdge.edges = s.edges.tail := rfl
@[simp] theorem State.resetEdge_tick (s : State) : s.resetEdge.tick = s.tick + 1 := rfl

/-! ## withFetchWord: a command word placed at the coming edge -/

@[simp] theorem State.withFetchWord_params (s : State) (nbits w : Nat) :
    (s.withFetchWord nbits w).params = s.params := rfl
@[simp] theorem State.withFetchWord_cfg (s : State) (nbits w : Nat) : (s.withFetchWord nbits w).cfg = s.cfg := rfl
@[simp] theorem State.withFetchWord_errSticky (s : State) (nbits w : Nat) :
    (s.withFetchWord nbits w).errSticky = s.errSticky := rfl
@[simp] theorem State.withFetchWord_edge (s : State) (nbits w : Nat) :
    (s.withFetchWord nbits w).edge = Edge.offering (tableWord nbits w) := rfl

/-! ## The operands of a command after an update that leaves the ports alone -/

@[simp] theorem State.answered_edge (s : State) (r : Response) : (s.answered r).edge = s.edge := rfl
@[simp] theorem State.answered_inCommand (s : State) (r : Response) : (s.answered r).inCommand = s.inCommand := rfl
@[simp] theorem State.answered_inData (s : State) (r : Response) : (s.answered r).inData = s.inData := rfl
@[simp] theorem State.answered_inLanes (s : State) (r : Response) : (s.answered r).inLanes = s.inLanes := rfl

end Sys2Proof.Machine
end

