-- ==== Sys2Proof/Laws/Ops.lean ====
section
/-! SUPPORT. What each shared operation can do, said once. -/

namespace Sys2Proof.Machine

/-! ## Completing a command -/

theorem respond_eq (st : Status) (data : Nat) (coord : List Nat) (s : State) :
    respond st data coord s = .next (s.answered ⟨st, data, coord⟩) := rfl

theorem raise_eq (e : Status) (s : State) : raise e s = .next (s.answered ⟨e, 0, zeroCoord s.params⟩) := rfl

theorem respondData_eq (x : Nat) (s : State) :
    respondData x s = .next (s.answered ⟨.ok, x, zeroCoord s.params⟩) := rfl

theorem acceptIllegal_eq (s : State) :
    acceptIllegal s = .next (s.answered ⟨.illegalCommand, 0, zeroCoord s.params⟩) := rfl

/-- A response fails exactly when its status is not OK (60 R92). -/
theorem Response.failed_iff (r : Response) : r.failed = true ↔ r.status ≠ .ok := by
  unfold Response.failed
  cases r.status <;> decide

/-- Everything the acceptance of a command can do: one response is appended, and only `cfg` may change beside it, to a pair
of 42 R81 and only by a CONFIG. -/
theorem exec_answers (i : Instr) (s : State) :
    ∃ cfg r, exec i s = .next (State.answered { s with cfg := cfg } r) ∧
      (cfg = s.cfg ∨ r.failed = false ∧ ∃ d n, i = .config d n ∧ specAccepted s.params d n = true ∧
        cfg = ⟨true, BitVec.ofNat 8 d, BitVec.ofNat 8 n⟩) := by
  cases i with
  | config d n =>
    simp only [exec, execConfig]
    split
    · exact ⟨_, _, rfl, .inr ⟨rfl, d, n, rfl, ‹_›, rfl⟩⟩
    · exact ⟨s.cfg, _, rfl, .inl rfl⟩
  | encode => simp only [exec, execEncode]; split_ifs <;> exact ⟨s.cfg, _, rfl, .inl rfl⟩
  | decode l => simp only [exec, execDecode]; split_ifs <;> exact ⟨s.cfg, _, rfl, .inl rfl⟩
  | bitrange width start stop =>
    simp only [exec, execBitrange]; split_ifs <;> exact ⟨s.cfg, _, rfl, .inl rfl⟩
  | rotl width amount => simp only [exec, execRotl]; split_ifs <;> exact ⟨s.cfg, _, rfl, .inl rfl⟩
  | rotr width amount => simp only [exec, execRotr]; split_ifs <;> exact ⟨s.cfg, _, rfl, .inl rfl⟩
  | grayenc => exact ⟨s.cfg, _, rfl, .inl rfl⟩
  | graydec => exact ⟨s.cfg, _, rfl, .inl rfl⟩
  | tsb width => simp only [exec, execTsb]; split_ifs <;> exact ⟨s.cfg, _, rfl, .inl rfl⟩

/-! ## The output channel -/

/-- A response stands on the output port exactly when it is the head of `Q`, its result is available, and the device is out
of reset (70 R111, R116). -/
theorem State.outResponse_eq_some (s : State) (r : Response) :
    s.outResponse = some r ↔
      s.started = true ∧ s.edge.rst = false ∧ ∃ rest, s.queue = ⟨r, 0⟩ :: rest := by
  unfold State.outResponse
  rcases s.queue with _ | ⟨⟨resp, wait⟩, rest⟩
  · simp
  · rcases Nat.eq_zero_or_pos wait with hw | hw
    · subst hw; simp [and_assoc]
    · simp [Nat.ne_of_gt hw]

/-- A transfer on the output channel delivers the head of `Q`. -/
theorem State.outTransfer_cases (s : State) (h : s.outTransfer = true) :
    ∃ r rest, s.edge.outReady = true ∧ s.outResponse = some r ∧ s.queue = ⟨r, 0⟩ :: rest := by
  simp only [State.outTransfer, State.outValid, Bool.and_eq_true, Option.isSome_iff_exists] at h
  obtain ⟨hr, r, hsome⟩ := h
  obtain ⟨_, _, rest, hq⟩ := (s.outResponse_eq_some r).1 hsome
  exact ⟨r, rest, hr, hsome, hq⟩

/-! ## The input channel -/

/-- A transfer on the input channel happens only out of reset, with `stall` = 0 and room in `Q` (70 R114, R117). -/
theorem State.inTransfer_cases (s : State) (h : s.inTransfer = true) :
    s.started = true ∧ s.edge.rst = false ∧ s.edge.inValid = true ∧ s.stall = 0 ∧
      s.queue.length < s.params.qcap := by
  simp only [State.inTransfer, State.inReady, State.full, Bool.and_eq_true, Bool.not_eq_true', beq_iff_eq,
    decide_eq_false_iff_not, Nat.not_le] at h
  tauto

/-- After the first reset the host breaks a duty exactly when it does not hold an offer (70 R115). -/
theorem State.hostRefusal_started (s : State) (h : s.started = true) :
    s.hostRefusal = if s.offerHeld then none else some .commandNotHeld := by
  simp [State.hostRefusal, h]

/-- A standing offer is held when the same command is still offered. -/
theorem State.offerHeld_some (s : State) (c : Command) (h : s.offered = some c) :
    s.offerHeld = true ↔ s.edge.inValid = true ∧ s.inCommand = c := by
  simp [State.offerHeld, h]

end Sys2Proof.Machine
end

