-- ==== Sys2Proof/Laws/BitField.lean ====
section
/-! SUPPORT. One spec lemma for each function of BitFieldOps (40 R58 to R65): which bits its result has, and how wide it
is. -/

namespace Sys2Proof.Machine

/-! ## Masks and bit ranges -/

theorem and_mask (x w : Nat) : x &&& mask w = x % 2 ^ w := Nat.and_two_pow_sub_one_eq_mod x w

@[simp] theorem mask_testBit (w k : Nat) : (mask w).testBit k = decide (k < w) :=
  Nat.testBit_two_pow_sub_one w k

theorem bitRange_eq (x width start stop : Nat) :
    bitRange x width start stop = x / 2 ^ (width - stop) % 2 ^ (stop - start) := by
  rw [bitRange, and_mask, Nat.shiftRight_eq_div_pow]

theorem bitRange_lt (x width start stop : Nat) : bitRange x width start stop < 2 ^ (stop - start) := by
  rw [bitRange_eq]
  exact Nat.mod_lt _ (by positivity)

theorem bitRange_testBit (x width start stop k : Nat) :
    (bitRange x width start stop).testBit k = (decide (k < stop - start) && x.testBit (width - stop + k)) := by
  rw [bitRange_eq, Nat.testBit_mod_two_pow, Nat.testBit_div_two_pow, Nat.add_comm]

/-! ## Rotations -/

theorem rotateLeft_lt (x amount width : Nat) : rotateLeft x amount width < 2 ^ width := by
  simp only [rotateLeft, and_mask]
  exact Nat.mod_lt _ (by positivity)

theorem rotateRight_lt (x amount width : Nat) : rotateRight x amount width < 2 ^ width := by
  simp only [rotateRight, and_mask]
  exact Nat.mod_lt _ (by positivity)

/-- Bit k of the operand is bit k + a, around the width, of the left rotation. -/
theorem rotateLeft_testBit (x a width k : Nat) (hk : k < width) :
    (rotateLeft x a width).testBit ((k + a) % width) = x.testBit k := by
  have hr : a % width < width := Nat.mod_lt _ (by omega)
  have hm : (k + a) % width < width := Nat.mod_lt _ (by omega)
  have hsum : (k + a) % width = if k + a % width < width then k + a % width else k + a % width - width := by
    rw [Nat.add_mod, Nat.mod_eq_of_lt hk]
    split
    · next h => exact Nat.mod_eq_of_lt h
    · next h => rw [Nat.mod_eq_sub_mod (by omega), Nat.mod_eq_of_lt (by omega)]
  simp only [rotateLeft, Nat.testBit_and, Nat.testBit_or, Nat.testBit_shiftLeft, Nat.testBit_shiftRight, mask_testBit]
  rw [hsum]
  split
  · next h =>
    have : ¬ width - a % width + (k + a % width) < width := by omega
    simp [hk, this, h]
  · next h =>
    have h1 : ¬ a % width ≤ k + a % width - width := by omega
    have h2 : width - a % width + (k + a % width - width) = k := by omega
    have h3 : k + a % width - width < width := by omega
    simp [hk, h1, h2, h3]

/-- Bit k + a, around the width, of the operand is bit k of the right rotation. -/
theorem rotateRight_testBit (x a width k : Nat) (hk : k < width) :
    (rotateRight x a width).testBit k = x.testBit ((k + a) % width) := by
  have hr : a % width < width := Nat.mod_lt _ (by omega)
  have hsum : (k + a) % width = if k + a % width < width then k + a % width else k + a % width - width := by
    rw [Nat.add_mod, Nat.mod_eq_of_lt hk]
    split
    · next h => exact Nat.mod_eq_of_lt h
    · next h => rw [Nat.mod_eq_sub_mod (by omega), Nat.mod_eq_of_lt (by omega)]
  simp only [rotateRight, Nat.testBit_and, Nat.testBit_or, Nat.testBit_shiftLeft, Nat.testBit_shiftRight, mask_testBit]
  rw [hsum]
  split
  · next h =>
    have h1 : ¬ width - a % width ≤ k := by omega
    simp [hk, h1, Nat.add_comm, h]
  · next h =>
    have h1 : width - a % width ≤ k := by omega
    have h2 : ¬ a % width + k < width := by omega
    have h3 : k - (width - a % width) = k + a % width - width := by omega
    simp [hk, h1, h2, h3]
    omega

/-! ## Gray code -/

theorem grayEncode_eq (x : Nat) : grayEncode x = x ^^^ (x / 2) := by
  rw [grayEncode, Nat.shiftRight_eq_div_pow, pow_one]

theorem grayEncode_lt {x w : Nat} (h : x < 2 ^ w) : grayEncode x < 2 ^ w := by
  rw [grayEncode_eq]
  exact Nat.xor_lt_two_pow h (lt_of_le_of_lt (Nat.div_le_self _ _) h)

theorem xorShifts_lt {x w : Nat} (h : x < 2 ^ w) (k : Nat) : xorShifts x k < 2 ^ w := by
  induction k with
  | zero => exact h
  | succ k ih =>
    exact Nat.xor_lt_two_pow ih (lt_of_le_of_lt (by rw [Nat.shiftRight_eq_div_pow]; exact Nat.div_le_self _ _) h)

theorem grayDecode_lt {x w : Nat} (h : x < 2 ^ w) : grayDecode x < 2 ^ w := xorShifts_lt h _

/-- The sum of the shifts 0 .. k and its own shift differ by the first and the last term only. -/
theorem grayEncode_xorShifts (x k : Nat) : grayEncode (xorShifts x k) = x ^^^ (x >>> (k + 1)) := by
  induction k with
  | zero => rfl
  | succ k ih =>
    simp only [grayEncode, xorShifts] at ih ⊢
    rw [Nat.shiftRight_xor_distrib, ← Nat.shiftRight_add]
    calc xorShifts x k ^^^ x >>> (k + 1) ^^^ (xorShifts x k >>> 1 ^^^ x >>> (k + 1 + 1))
        = xorShifts x k ^^^ xorShifts x k >>> 1 ^^^ x >>> (k + 1) ^^^ x >>> (k + 1 + 1) := by
          ac_rfl
      _ = x ^^^ x >>> (k + 1 + 1) := by rw [ih, Nat.xor_assoc x, Nat.xor_self, Nat.xor_zero]

/-- GRAYDEC's function is a right inverse of GRAYENC's (40 R64). -/
theorem grayEncode_grayDecode (x : Nat) : grayEncode (grayDecode x) = x := by
  rw [grayDecode, grayEncode_xorShifts, Nat.shiftRight_eq_div_pow, Nat.div_eq_of_lt Nat.lt_log2_self, Nat.xor_zero]

/-- Gray coding loses nothing. -/
theorem grayEncode_injective : Function.Injective grayEncode := by
  intro x y h
  rw [grayEncode_eq, grayEncode_eq] at h
  have hxor : x ^^^ y = (x ^^^ y) / 2 := by
    have h2 : (x ^^^ y) / 2 = x / 2 ^^^ y / 2 := by
      have := Nat.shiftRight_xor_distrib (a := x) (b := y) (i := 1)
      simpa [Nat.shiftRight_eq_div_pow] using this
    rw [h2]
    calc x ^^^ y = (x ^^^ x / 2) ^^^ (x / 2 ^^^ y) := by
          rw [Nat.xor_assoc, ← Nat.xor_assoc (x / 2) (x / 2), Nat.xor_self, Nat.zero_xor]
      _ = x / 2 ^^^ y / 2 := by
          rw [h, Nat.xor_comm (x / 2) y, ← Nat.xor_assoc, Nat.xor_comm y, Nat.xor_assoc (y / 2) y y, Nat.xor_self,
            Nat.xor_zero, Nat.xor_comm]
  have hzero : x ^^^ y = 0 := by omega
  exact Nat.xor_eq_zero_iff.1 hzero

/-! ## Trailing ones -/

theorem trailingSetBits_le (x w : Nat) : trailingSetBits x w ≤ w := by
  induction w generalizing x with
  | zero => simp [trailingSetBits]
  | succ w ih =>
    rw [trailingSetBits]
    split
    · exact Nat.succ_le_succ (ih _)
    · omega

/-! ## Single bits -/

/-- `v[k] <- b` writes bit k and no other. -/
@[simp] theorem setBit_testBit (v k : Nat) (b : Bool) (m : Nat) :
    (setBit v k b).testBit m = if m = k then b else v.testBit m := by
  have hone : (1 <<< k).testBit m = decide (m = k) := by
    rw [Nat.one_shiftLeft, Nat.testBit_two_pow]
    exact decide_eq_decide.2 eq_comm
  have hb : (b.toNat <<< k).testBit m = (decide (m = k) && b) := by
    rw [Nat.testBit_shiftLeft]
    rcases Nat.lt_trichotomy m k with h | rfl | h
    · have h1 : ¬ m ≥ k := by omega
      have h2 : m ≠ k := by omega
      simp [h1, h2]
    · cases b <;> simp
    · have h1 : m ≥ k := by omega
      have h2 : m ≠ k := by omega
      have h3 : Nat.testBit 1 (m - k) = false := Nat.testBit_lt_two_pow (Nat.one_lt_two_pow (by omega))
      cases b <;> simp [h2, h3]
  simp only [setBit, Nat.testBit_or, Nat.testBit_xor, Nat.testBit_and, hone, hb]
  split
  · next h => simp [h]
  · next h => simp [h]

end Sys2Proof.Machine
end

