-- ==== Sys2Proof/Laws/Lanes.lean ====
section
/-! SUPPORT. The lanes of a coordinate bus (10 R25): packing and unpacking are inverse to each other. -/

namespace Sys2Proof.Machine

theorem laneOf_eq (iw bus j : Nat) : laneOf iw bus j = bus / 2 ^ (j * iw) % 2 ^ iw := by
  rw [laneOf, Nat.shiftRight_eq_div_pow]

@[simp] theorem unpackLanes_length (iw k bus : Nat) : (unpackLanes iw k bus).length = k := by simp [unpackLanes]

/-- The lanes of a bus: the lowest, then those of the rest of the bus. -/
theorem unpackLanes_succ (iw k bus : Nat) :
    unpackLanes iw (k + 1) bus = bus % 2 ^ iw :: unpackLanes iw k (bus / 2 ^ iw) := by
  simp only [unpackLanes, List.range_succ_eq_map, List.map_cons, List.map_map, laneOf_eq]
  refine congrArg₂ _ (by simp) (List.map_congr_left fun j _ => ?_)
  simp only [Function.comp_apply, laneOf_eq, Nat.div_div_eq_div_mul, ← pow_add, Nat.succ_mul, Nat.add_comm]

/-- The bus of a bus's own lanes is the bus cut to the width of the lanes. -/
theorem packLanes_unpackLanes (iw k bus : Nat) : packLanes iw (unpackLanes iw k bus) = bus % 2 ^ (k * iw) := by
  induction k generalizing bus with
  | zero => simp [unpackLanes, packLanes, Nat.mod_one]
  | succ k ih =>
    rw [unpackLanes_succ, packLanes, ih, Nat.mod_mod, Nat.succ_mul, Nat.add_comm (k * iw), pow_add, Nat.mod_mul]

/-- The lanes of a packed bus are the components, each cut to its lane. -/
theorem unpackLanes_packLanes (iw : Nat) (cs : List Nat) :
    unpackLanes iw cs.length (packLanes iw cs) = cs.map (· % 2 ^ iw) := by
  induction cs with
  | nil => rfl
  | cons c cs ih =>
    rw [List.length_cons, unpackLanes_succ, packLanes, List.map_cons, ← ih]
    have hpos : 0 < 2 ^ iw := Nat.two_pow_pos iw
    rw [Nat.add_mul_mod_self_left, Nat.mod_mod, Nat.add_mul_div_left _ _ hpos,
      Nat.div_eq_of_lt (Nat.mod_lt _ hpos), Nat.zero_add]

/-- A packed bus is as wide as its lanes together. -/
theorem packLanes_lt (iw : Nat) (cs : List Nat) : packLanes iw cs < 2 ^ (cs.length * iw) := by
  have h := packLanes_unpackLanes iw cs.length (packLanes iw cs)
  rw [unpackLanes_packLanes] at h
  have hcut : packLanes iw (cs.map (· % 2 ^ iw)) = packLanes iw cs := by
    clear h
    induction cs with
    | nil => rfl
    | cons c cs ih => simp [packLanes, ih]
  rw [hcut] at h
  rw [h]
  exact Nat.mod_lt _ (Nat.two_pow_pos _)

/-- Cutting a command to its ports twice is cutting it once. -/
@[simp] theorem Command.sample_sample (p : Params) (c : Command) : (c.sample p).sample p = c.sample p := by
  simp [Command.sample, packLanes_unpackLanes]

theorem State.inData_lt (s : State) : s.inData < 2 ^ s.params.iw := Nat.mod_lt _ (Nat.two_pow_pos _)

end Sys2Proof.Machine
end

