-- ==== Sys2Proof/Laws/PerInstr.lean ====
section
/-! SUPPORT. A fact about every command as syntax, one lemma a constructor: the fields of its word are its opcode, zero in
RSV, and its operands (30 R48, R49). -/

namespace Sys2Proof

/-- The word built from an opcode byte and three fields that fit is their weighted sum (30 R48). -/
theorem wordOf_toNat (o a b c : Nat) (ho : o < 256) (ha : a < 256) (hb : b < 256) (hc : c < 256) :
    (BitVec.ofNat 32 (o ||| a <<< 8 ||| b <<< 16 ||| c <<< 24)).toNat = o + 256 * a + 65536 * b + 16777216 * c := by
  have h1 : o ||| a <<< 8 = o + 256 * a := by
    rw [Nat.or_comm, ← Nat.shiftLeft_add_eq_or_of_lt (by simpa using ho), Nat.shiftLeft_eq]; omega
  have h2 : (o + 256 * a) ||| b <<< 16 = o + 256 * a + 65536 * b := by
    rw [Nat.or_comm, ← Nat.shiftLeft_add_eq_or_of_lt (by omega), Nat.shiftLeft_eq]; omega
  have h3 : (o + 256 * a + 65536 * b) ||| c <<< 24 = o + 256 * a + 65536 * b + 16777216 * c := by
    rw [Nat.or_comm, ← Nat.shiftLeft_add_eq_or_of_lt (by omega), Nat.shiftLeft_eq]; omega
  rw [BitVec.toNat_ofNat, h1, h2, h3]
  omega

/-- The opcodes of 30 R50 fit their 4-bit field. -/
theorem Instr.opcode_lt (i : Instr) : i.opcode < 16 := by cases i <;> simp [Instr.opcode]

/-- The fields of a well-formed command fit 8 bits. -/
theorem Instr.fields_lt (i : Instr) (hw : i.wf = true) :
    i.fields.1 < 256 ∧ i.fields.2.1 < 256 ∧ i.fields.2.2 < 256 := by
  cases i <;> simp_all [Instr.wf, Instr.fields]

end Sys2Proof

namespace Sys2Proof.Laws.WordFields

/-- The fields of the word of a well-formed command. -/
def Statement (i : Instr) : Prop :=
  i.wf = true →
    fieldOP (encodeWord i) = i.opcode ∧ fieldRSV (encodeWord i) = 0 ∧ fieldFA (encodeWord i) = i.fields.1 ∧
      fieldFB (encodeWord i) = i.fields.2.1 ∧ fieldFC (encodeWord i) = i.fields.2.2

/-- The fields of a sum of an opcode below 16 and three bytes. -/
theorem of_fields (i : Instr) : Statement i := by
  intro hw
  obtain ⟨ha, hb, hc⟩ := i.fields_lt hw
  have ho := i.opcode_lt
  have h : (encodeWord i).toNat = i.opcode + 256 * i.fields.1 + 65536 * i.fields.2.1 + 16777216 * i.fields.2.2 :=
    wordOf_toNat _ _ _ _ (by omega) ha hb hc
  simp only [fieldOP, fieldRSV, fieldFA, fieldFB, fieldFC, h]
  omega

theorem config (d n : Nat) : Statement (.config d n) := of_fields _
theorem encode : Statement .encode := of_fields _
theorem decode (l : Nat) : Statement (.decode l) := of_fields _
theorem bitrange (width start stop : Nat) : Statement (.bitrange width start stop) := of_fields _
theorem rotl (width amount : Nat) : Statement (.rotl width amount) := of_fields _
theorem rotr (width amount : Nat) : Statement (.rotr width amount) := of_fields _
theorem grayenc : Statement .grayenc := of_fields _
theorem graydec : Statement .graydec := of_fields _
theorem tsb (width : Nat) : Statement (.tsb width) := of_fields _

end Sys2Proof.Laws.WordFields
end

