-- ==== Sys2Proof/Laws/Step.lean ====
section
/-! SUPPORT. What one edge can do, said once. -/

namespace Sys2Proof.Machine

/-- The acceptance of the offered command: one response is appended, and only `cfg` may change beside it. -/
theorem accept_answers (s : State) :
    ∃ cfg r, accept s = .next (State.answered { s with cfg := cfg } r) ∧
      (cfg = s.cfg ∨ r.failed = false ∧ ∃ d n, decodeWord s.inCommand.word = .ok (.config d n) ∧
        specAccepted s.params d n = true ∧ cfg = ⟨true, BitVec.ofNat 8 d, BitVec.ofNat 8 n⟩) := by
  unfold accept
  split
  next i hi =>
    obtain ⟨cfg, r, h, hc⟩ := exec_answers i s
    refine ⟨cfg, r, h, hc.imp_right ?_⟩
    rintro ⟨hr, d, n, rfl, hrest⟩
    exact ⟨hr, d, n, hi, hrest⟩
  next => exact ⟨s.cfg, _, rfl, .inl rfl⟩

/-- Everything an edge can do when it has a next state: a reset edge; an edge without acceptance; an edge with one. -/
theorem step_cases (s t : State) (h : step s = .next t) :
    (s.edge.rst = true ∧ s.hostRefusal = none ∧ t = s.resetEdge) ∨
    (s.edge.rst = false ∧ s.hostRefusal = none ∧ s.inTransfer = false ∧ t = s.endEdge s) ∨
    (s.edge.rst = false ∧ s.hostRefusal = none ∧ s.inTransfer = true ∧
      ∃ u, accept s = .next u ∧ t = s.endEdge u) := by
  unfold step at h
  split at h
  · cases h
  · next hn =>
    split_ifs at h with hr ht
    · exact .inl ⟨hr, hn, by simpa using h.symm⟩
    · obtain ⟨cfg, r, ha, -⟩ := accept_answers s
      rw [ha] at h
      exact .inr (.inr ⟨by simpa using hr, hn, ht, _, ha, by simpa [mapNext] using h.symm⟩)
    · exact .inr (.inl ⟨by simpa using hr, hn, by simpa using ht, by simpa using h.symm⟩)

/-- A step stops exactly on a run to which the spec gives no meaning (70 R112, R115). -/
theorem step_refused_iff (s : State) (r : Refusal) : step s = .refused r ↔ s.hostRefusal = some r := by
  unfold step
  split
  · next q hq => simp [hq]
  · next hn =>
    obtain ⟨cfg, q, ha, -⟩ := accept_answers s
    split_ifs <;> simp [hn, ha, mapNext]

/-- A step on a run to which the spec gives a meaning has a next state. -/
theorem step_next (s : State) (h : s.hostRefusal = none) : ∃ t, step s = .next t := by
  obtain ⟨cfg, q, ha, -⟩ := accept_answers s
  unfold step
  rw [h]
  simp only [ha]
  split_ifs
  · exact ⟨_, rfl⟩
  · exact ⟨_, rfl⟩
  · exact ⟨_, rfl⟩

end Sys2Proof.Machine
end

