-- ==== Sys2Proof/Laws/Transform.lean ====
section
/-! SUPPORT. The recurrence and the level steps: the ranges of their results, and the levels one by one. -/

namespace Sys2Proof.Machine

/-! ## The recurrence -/

theorem entry_lt {w dim : Nat} (h : w < 2 ^ dim) : entry w < 2 ^ dim := by
  unfold entry
  split
  · positivity
  · exact grayEncode_lt (by omega)

theorem Orientation.update_e_lt {o : Orientation} {dim : Nat} (w : Nat) (he : o.e < 2 ^ dim) :
    (o.update w dim).e < 2 ^ dim := Nat.xor_lt_two_pow he (rotateLeft_lt _ _ _)

theorem Orientation.update_d_lt {o : Orientation} {dim : Nat} (w : Nat) (hd : 1 ≤ dim) : (o.update w dim).d < dim :=
  Nat.mod_lt _ hd

theorem Orientation.toCurve_lt (o : Orientation) (b dim : Nat) : o.toCurve b dim < 2 ^ dim := rotateRight_lt _ _ _

theorem Orientation.fromCurve_lt {o : Orientation} {dim : Nat} (b : Nat) (he : o.e < 2 ^ dim) :
    o.fromCurve b dim < 2 ^ dim := Nat.xor_lt_two_pow (rotateLeft_lt _ _ _) he

/-! ## Scattering and gathering bits -/

@[simp] theorem scatterBits_length (dim k l : Nat) (coord : List Nat) :
    (scatterBits dim k l coord).length = coord.length := by simp [scatterBits]

/-- Bit m of component j after a scatter to bit k (42 R84, step 4). -/
theorem scatterBits_testBit (dim k l : Nat) (coord : List Nat) (j m : Nat) (hj : j < coord.length) :
    ((scatterBits dim k l coord).getD j 0).testBit m =
      if j < dim ∧ m = k then l.testBit j else (coord.getD j 0).testBit m := by
  simp only [scatterBits, List.getD_eq_getElem?_getD, List.getElem?_mapIdx, List.getElem?_eq_getElem hj,
    Option.map_some, Option.getD_some]
  by_cases hd : j < dim <;> simp [hd]

/-- Bit j of a gather is bit k of component j, for j < D (42 R87, step 1). -/
theorem gatherBits_testBit (dim k : Nat) (coord : List Nat) (j : Nat) :
    (gatherBits dim k coord).testBit j = (decide (j < dim) && (coord.getD j 0).testBit k) := by
  unfold gatherBits
  induction dim with
  | zero => simp
  | succ n ih =>
    rw [List.range_succ, List.foldl_append]
    simp only [List.foldl_cons, List.foldl_nil, setBit_testBit, ih]
    rcases Nat.lt_trichotomy j n with h | rfl | h
    · have h1 : j ≠ n := by omega
      have h2 : j < n + 1 := by omega
      simp [h, h1, h2]
    · simp
    · have h1 : j ≠ n := by omega
      have h2 : ¬ j < n + 1 := by omega
      have h3 : ¬ j < n := by omega
      simp [h1, h2, h3]

/-! ## The levels of ENCODE -/

/-- The first `k` levels of ENCODE. -/
def encPrefix (lanes dim n idx k : Nat) : EncCarry :=
  (List.range k).foldl (fun c i => encLevel idx dim n i c)
    { orient := Orientation.initial, coord := List.replicate lanes 0 }

theorem encLevels_eq (lanes dim n idx : Nat) : encLevels lanes dim n idx = encPrefix lanes dim n idx n := rfl

theorem encPrefix_zero (lanes dim n idx : Nat) :
    encPrefix lanes dim n idx 0 = { orient := Orientation.initial, coord := List.replicate lanes 0 } := rfl

theorem encPrefix_succ (lanes dim n idx k : Nat) :
    encPrefix lanes dim n idx (k + 1) = encLevel idx dim n k (encPrefix lanes dim n idx k) := by
  simp [encPrefix, List.range_succ]

theorem encPrefix_length (lanes dim n idx k : Nat) : (encPrefix lanes dim n idx k).coord.length = lanes := by
  induction k with
  | zero => simp [encPrefix_zero]
  | succ k ih => rw [encPrefix_succ]; simp [encLevel, ih]

/-- The recurrence state between the levels of ENCODE is legal (41 R73, R77). -/
theorem encPrefix_orient (lanes dim n idx k : Nat) (hd : 1 ≤ dim) :
    (encPrefix lanes dim n idx k).orient.e < 2 ^ dim ∧ (encPrefix lanes dim n idx k).orient.d < dim := by
  induction k with
  | zero => exact ⟨by rw [encPrefix_zero]; exact Nat.two_pow_pos dim, hd⟩
  | succ k ih =>
    rw [encPrefix_succ]
    exact ⟨Orientation.update_e_lt _ ih.1, Orientation.update_d_lt _ hd⟩

/-- The first k levels write only the bits n − k .. n − 1 of the components below D (42 R84, R86). -/
theorem encPrefix_testBit (lanes dim n idx k j m : Nat) (hk : k ≤ n) (hm : dim ≤ j ∨ n ≤ m ∨ m < n - k) :
    ((encPrefix lanes dim n idx k).coord.getD j 0).testBit m = false := by
  induction k with
  | zero =>
    rw [encPrefix_zero]
    simp only [List.getD_eq_getElem?_getD, List.getElem?_replicate]
    split <;> simp
  | succ k ih =>
    rw [encPrefix_succ]
    by_cases hj : j < lanes
    · simp only [encLevel]
      rw [scatterBits_testBit _ _ _ _ _ _ (by rw [encPrefix_length]; exact hj), if_neg (by omega)]
      exact ih (by omega) (by omega)
    · rw [List.getD_eq_getElem?_getD, List.getElem?_eq_none]
      · simp
      · simpa [encLevel, encPrefix_length] using Nat.le_of_not_lt hj

/-- The components of ENCODE are below 2^N (42 R80). -/
theorem encLevels_lt (lanes dim n idx j : Nat) : (encLevels lanes dim n idx).coord.getD j 0 < 2 ^ n := by
  apply Nat.lt_pow_two_of_testBit
  intro m hm
  exact encPrefix_testBit _ _ _ _ _ _ _ (le_refl n) (.inr (.inl hm))

/-- The lanes of ENCODE from D up are 0 (42 R86). -/
theorem encLevels_beyond (lanes dim n idx j : Nat) (hj : dim ≤ j) : (encLevels lanes dim n idx).coord.getD j 0 = 0 := by
  apply Nat.eq_of_testBit_eq
  intro m
  rw [Nat.zero_testBit]
  exact encPrefix_testBit _ _ _ _ _ _ _ (le_refl n) (.inl hj)

/-! ## The levels of DECODE -/

/-- The first `k` levels of DECODE. -/
def decPrefix (coord : List Nat) (dim n k : Nat) : DecCarry :=
  (List.range k).foldl (fun c i => decLevel coord dim n i c) { orient := Orientation.initial, idx := 0 }

theorem decLevels_eq (coord : List Nat) (dim n : Nat) : decLevels coord dim n = decPrefix coord dim n n := rfl

theorem decPrefix_zero (coord : List Nat) (dim n : Nat) :
    decPrefix coord dim n 0 = { orient := Orientation.initial, idx := 0 } := rfl

theorem decPrefix_succ (coord : List Nat) (dim n k : Nat) :
    decPrefix coord dim n (k + 1) = decLevel coord dim n k (decPrefix coord dim n k) := by
  simp [decPrefix, List.range_succ]

/-- The recurrence state between the levels of DECODE is legal (41 R73, R77). -/
theorem decPrefix_orient (coord : List Nat) (dim n k : Nat) (hd : 1 ≤ dim) :
    (decPrefix coord dim n k).orient.e < 2 ^ dim ∧ (decPrefix coord dim n k).orient.d < dim := by
  induction k with
  | zero => exact ⟨by rw [decPrefix_zero]; exact Nat.two_pow_pos dim, hd⟩
  | succ k ih =>
    rw [decPrefix_succ]
    exact ⟨Orientation.update_e_lt _ ih.1, Orientation.update_d_lt _ hd⟩

/-- After k levels the index has k groups of D bits (42 R87: "idx < 2^(N·D)"). -/
theorem decPrefix_idx_lt (coord : List Nat) (dim n k : Nat) : (decPrefix coord dim n k).idx < 2 ^ (k * dim) := by
  induction k with
  | zero => simp [decPrefix_zero]
  | succ k ih =>
    rw [decPrefix_succ, Nat.succ_mul]
    refine Nat.or_lt_two_pow ?_ (lt_of_lt_of_le (grayDecode_lt (Orientation.toCurve_lt _ _ _))
      (Nat.pow_le_pow_right (by omega) (by omega)))
    rw [Nat.shiftLeft_eq, pow_add]
    exact Nat.mul_lt_mul_of_pos_right ih (by positivity)

theorem decLevels_idx_lt (coord : List Nat) (dim n : Nat) : (decLevels coord dim n).idx < 2 ^ (n * dim) :=
  decPrefix_idx_lt coord dim n n

end Sys2Proof.Machine
end

