-- ==== Sys2Proof/Tests/Slice0.lean ====
section
/-! SUPPORT. Tests whose expected values come from spec/ (30 R56, 40, 41 R79, 95), and for each statement with hypotheses a
witness that meets them. -/

namespace Sys2Proof.Tests

open Sys2Proof.Machine

/-! ## Small states -/

/-- An edge at which the host offers `c`, and takes a response if `take`. -/
def offering (c : Command) (take : Bool) : Edge :=
  { rst := false, inValid := true, cmd := c, outReady := take, latency := 1, stall := 0 }

/-- An edge at which the host offers nothing. -/
def quiet (take : Bool) : Edge :=
  { rst := false, inValid := false, cmd := ⟨0#32, 0, 0⟩, outReady := take, latency := 1, stall := 2 }

/-- A reset edge at which the host drives everything. -/
def resetting : Edge :=
  { rst := true, inValid := true, cmd := ⟨2#32, 1, 0⟩, outReady := true, latency := 1, stall := 3 }

/-- The machine after CONFIG D, N. -/
def configured (d n : Nat) : State :=
  { State.reset with cfg := ⟨true, BitVec.ofNat 8 d, BitVec.ofNat 8 n⟩ }

/-- `s` with a command on its input ports. -/
def offer (w : CmdWord) (data : Nat) (coord : List Nat) (s : State) : State :=
  { s with edges := [offering ⟨w, data, packLanes s.params.iw coord⟩ false] }

/-- The same machine with IW = 32. -/
def narrow (s : State) : State := { s with params := { s.params with width := .w32 } }

/-- The next state of one step. -/
def nextOf (s : State) : Option State :=
  match step s with
  | .next t => some t
  | .fault _ => none
  | .refused _ => none

/-- The response a step appends. -/
def reply (s : State) : Option Response := (nextOf s).bind State.lastResponse

/-- The refusal a step ends in. -/
def refusalOf (s : State) : Option Refusal :=
  match step s with
  | .next _ => none
  | .fault _ => none
  | .refused r => some r

/-- A response that fails, as 60 R99 has it. -/
def failure : Response := ⟨.illegalOperand, 0, [0, 0, 0, 0, 0, 0, 0, 0]⟩

/-- A machine in use: CurveSpec (2, 2), a failure presented, ENCODE 11 offered, the host taking responses. -/
def busy : State :=
  { configured 2 2 with
    queue := [⟨failure, 0⟩]
    edges := [offering ⟨2#32, 11, 0⟩ true, quiet false] }

/-! ## WellFormed refuses what does not fit a field (30 R56) -/

theorem test_wf_config_d : (Instr.config 256 0).wf = false := by decide
theorem test_wf_config_n : (Instr.config 0 256).wf = false := by decide
theorem test_wf_decode : (Instr.decode 256).wf = false := by decide
theorem test_wf_bitrange_width : (Instr.bitrange 256 0 0).wf = false := by decide
theorem test_wf_bitrange_start : (Instr.bitrange 0 256 0).wf = false := by decide
theorem test_wf_bitrange_end : (Instr.bitrange 0 0 256).wf = false := by decide
theorem test_wf_rotl : (Instr.rotl 256 0).wf = false ∧ (Instr.rotl 0 256).wf = false := by decide
theorem test_wf_rotr : (Instr.rotr 256 0).wf = false ∧ (Instr.rotr 0 256).wf = false := by decide
theorem test_wf_tsb : (Instr.tsb 256).wf = false := by decide

/-! ## Words written out from the field layout of 30 R48: FC ++ FB ++ FA ++ RSV ++ OP -/

theorem test_word_config : decodeWord (0x00#8 ++ 0x01#8 ++ 0x02#8 ++ 0x0#4 ++ 0x1#4) = .ok (.config 2 1) := by decide
theorem test_word_encode : decodeWord (0x00#8 ++ 0x00#8 ++ 0x00#8 ++ 0x0#4 ++ 0x2#4) = .ok .encode := by decide
theorem test_word_decode : decodeWord (0x00#8 ++ 0x00#8 ++ 0x02#8 ++ 0x0#4 ++ 0x3#4) = .ok (.decode 2) := by decide
theorem test_word_bitrange :
    decodeWord (0x06#8 ++ 0x02#8 ++ 0x08#8 ++ 0x0#4 ++ 0x4#4) = .ok (.bitrange 8 2 6) := by decide
theorem test_word_rotl : decodeWord (0x00#8 ++ 0x05#8 ++ 0x04#8 ++ 0x0#4 ++ 0x5#4) = .ok (.rotl 4 5) := by decide
theorem test_word_rotr : decodeWord (0x00#8 ++ 0x01#8 ++ 0x04#8 ++ 0x0#4 ++ 0x6#4) = .ok (.rotr 4 1) := by decide
theorem test_word_grayenc : decodeWord (0x00#8 ++ 0x00#8 ++ 0x00#8 ++ 0x0#4 ++ 0x7#4) = .ok .grayenc := by decide
theorem test_word_graydec : decodeWord (0x00#8 ++ 0x00#8 ++ 0x00#8 ++ 0x0#4 ++ 0x8#4) = .ok .graydec := by decide
theorem test_word_tsb : decodeWord (0x00#8 ++ 0x00#8 ++ 0x04#8 ++ 0x0#4 ++ 0x9#4) = .ok (.tsb 4) := by decide

/-- The illegal words of 95 section 2.8 (DC-1 to DC-10). -/
theorem test_illegal_words :
    decodeWord 0x00000000#32 = .error .reservedOpcode ∧ decodeWord 0x0000000A#32 = .error .reservedOpcode ∧
    decodeWord 0x0000000F#32 = .error .reservedOpcode ∧ decodeWord 0x00010211#32 = .error .reservedField ∧
    decodeWord 0x01010201#32 = .error .mustBeZero ∧ decodeWord 0x00000102#32 = .error .mustBeZero ∧
    decodeWord 0x00010203#32 = .error .mustBeZero ∧ decodeWord 0x00000107#32 = .error .mustBeZero ∧
    decodeWord 0x00010809#32 = .error .mustBeZero ∧ decodeWord 0x01010405#32 = .error .mustBeZero := by decide

theorem test_table_word : decodeTableWord 32 0x06020804 = some (.bitrange 8 2 6) := by decide

/-! ## One step a command (95, the vectors named) -/

/-- L1-6f, L1-6g: CONFIG 8, 8 and CONFIG 8, 9 with IW = 64. -/
theorem test_config_bound :
    ((nextOf (offer 0x00080801#32 0 [] State.reset)).map State.cfg) = some ⟨true, 8#8, 8#8⟩ ∧
    reply (offer 0x00090801#32 0 [] State.reset) = some ⟨.invalidSpec, 0, [0, 0, 0, 0, 0, 0, 0, 0]⟩ := by decide

/-- L1-6k: CONFIG 2, 17 with IW = 32 fails and leaves `cfg` as it was. -/
theorem test_config_narrow :
    ((nextOf (offer 0x00110201#32 0 [] (narrow (configured 3 4)))).map State.cfg) = some ⟨true, 3#8, 4#8⟩ := by decide

/-- ET-3: ENCODE 45 with (3, 2). -/
theorem test_encode : reply (offer 2#32 45 [] (configured 3 2)) = some ⟨.ok, 0, [2, 3, 2, 0, 0, 0, 0, 0]⟩ := by decide

/-- L1-6n: ENCODE 0x12345678 with (4, 8) and IW = 32. -/
theorem test_encode_narrow :
    reply (offer 2#32 0x12345678 [] (narrow (configured 4 8))) =
      some ⟨.ok, 0, [0x40, 0x89, 0x2D, 0x4E, 0, 0, 0, 0]⟩ := by decide

/-- DE-3: DECODE 2 with (2, 2), lanes 2 to 7 in use. -/
theorem test_decode :
    reply (offer 0x00000203#32 0 [3, 2, 7, 7, 7, 7, 7, 7] (configured 2 2)) =
      some ⟨.ok, 11, [0, 0, 0, 0, 0, 0, 0, 0]⟩ := by decide

/-- DE-5: DimensionMismatch comes before CoordinateOutOfRange. -/
theorem test_decode_priority :
    reply (offer 0x00000303#32 0 [9, 9, 9] (configured 2 2)) =
      some ⟨.dimensionMismatch, 0, [0, 0, 0, 0, 0, 0, 0, 0]⟩ := by decide

/-- BR-1, BR-11. -/
theorem test_bitrange :
    (reply (offer 0x06020804#32 0xB4 [] State.reset)).map Response.data = some 0xD ∧
    (reply (offer 0x09000804#32 0xB4 [] State.reset)).map Response.status = some .illegalOperand := by decide

/-- RT-8, RT-2. -/
theorem test_rotl :
    (reply (offer 0x00FF4005#32 1 [] State.reset)).map Response.data = some 0x8000000000000000 ∧
    (reply (offer 0x00050405#32 9 [] State.reset)).map Response.data = some 3 := by decide

/-- RT-17, RT-18. -/
theorem test_rotr :
    (reply (offer 0x00010206#32 0xFE [] State.reset)).map Response.data = some 1 ∧
    (reply (offer 0x00000006#32 0 [] State.reset)).map Response.status = some .illegalOperand := by decide

/-- GE-8. -/
theorem test_grayenc :
    (reply (offer 7#32 0x8000000000000000 [] State.reset)).map Response.data = some 0xC000000000000000 := by decide

/-- GD-8. -/
theorem test_graydec :
    (reply (offer 8#32 0xFFFFFFFFFFFFFFFF [] State.reset)).map Response.data = some 0xAAAAAAAAAAAAAAAA := by decide

/-- TS-3, TS-5, TS-10. -/
theorem test_tsb :
    (reply (offer 0x00000409#32 0xFF [] State.reset)).map Response.data = some 4 ∧
    (reply (offer 0x00000009#32 0xFF [] State.reset)).map Response.data = some 0 ∧
    (reply (offer 0x00004109#32 1 [] State.reset)).map Response.status = some .illegalOperand := by decide

/-! ## The recurrence (41 R79; 95 RC-6, RC-7, TP-3) -/

theorem test_direction_3 : (List.range 8).map (direction · 3) = [0, 1, 1, 2, 2, 1, 1, 0] := by decide
theorem test_entry : (List.range 16).map entry = [0, 0, 0, 3, 3, 6, 6, 5, 5, 12, 12, 15, 15, 10, 10, 9] := by decide
theorem test_update :
    (Orientation.mk 5 2).update 5 3 = ⟨3, 1⟩ ∧ (Orientation.mk 0 0).update 7 3 = ⟨3, 1⟩ := by decide
theorem test_pair : (Orientation.mk 5 2).fromCurve 7 3 = 2 ∧ (Orientation.mk 5 2).toCurve 2 3 = 7 := by decide

/-! ## Edges -/

/-- P5: a reset edge discards what is owed. -/
theorem test_reset_edge :
    (nextOf { busy with edges := [resetting] }).map (fun t => (t.cfg, t.errSticky, t.queue)) =
      some (⟨false, 0#8, 0#8⟩, false, []) := by decide

/-- 10 R23, 70 R114: at one edge the failure is delivered and ENCODE 11 is accepted. -/
theorem test_both_transfers :
    (nextOf busy).map (fun t => (t.errSticky, t.responses)) =
      some (true, [⟨.ok, 0, [3, 2, 0, 0, 0, 0, 0, 0]⟩]) := by decide

/-- 70 R117: a full `Q` holds `in_ready` at 0. -/
theorem test_full : ({ busy with queue := List.replicate 4 ⟨failure, 0⟩ } : State).inReady = false := by decide

/-- 70 R112 and R115. -/
theorem test_refusals :
    refusalOf { busy with started := false } = some .commandBeforeReset ∧
    refusalOf { busy with offered := some ⟨2#32, 12, 0⟩ } = some .commandNotHeld ∧
    refusalOf { busy with offered := some ⟨2#32, 12, 0⟩, edges := [resetting] } = some .commandNotHeld := by decide

/-- 70 R115: an offer that stands at a reset edge stands after it. -/
theorem test_offer_across_reset :
    (nextOf { busy with edges := [resetting] }).map State.offered = some (some ⟨2#32, 1, 0⟩) := by decide

theorem test_placed_command :
    reply (State.reset.withFetchWord 32 0x00010201) = some ⟨.ok, 0, [0, 0, 0, 0, 0, 0, 0, 0]⟩ := by decide

/-! ## The assembler (30 R56): `DECODE 2, (3, 2)` and `ROTL 0x9, 5, 4`, braces for the parentheses -/

theorem test_parse_decode :
    parseLine (['D', 'E', 'C', 'O', 'D', 'E', ' ', '2', ',', ' ', Char.ofNat 123, '3', ',', ' ', '2', Char.ofNat 125]) =
      some (.decode 2 [3, 2]) := by decide
theorem test_parse_rotl :
    (parseLine ['R', 'O', 'T', 'L', ' ', '0', 'x', '9', ',', ' ', '5', ',', ' ', '4']).bind
      (assemble Params.reference) = some ⟨0x00050405#32, 9, 0⟩ := by decide
theorem test_assembler_refuses :
    assemble Params.reference (.config 256 0) = none ∧ assemble Params.reference (.decode 2 [1]) = none ∧
    assemble Params.reference (.encode (2 ^ 64)) = none := by decide

/-! ## Witnesses: states and operands that meet the hypotheses of the statements -/

/-- The machine in use is legal. -/
theorem busy_inv : busy.Inv where
  params := by decide
  cfg := fun _ _ => by decide
  room := fun _ => by decide
  fits := fun _ e he => by
    have h : e = ⟨failure, 0⟩ := by simpa [busy] using he
    subst h
    exact ⟨⟨by decide, by decide, by decide, fun _ => by decide⟩, by decide⟩
  stall := fun _ => by decide

theorem busy_configured : busy.Configured := by unfold State.Configured; decide

/-- A machine with (1, 3), DMAX lanes and index 5 on the port. -/
def line : State := offer 2#32 5 [5] (configured 1 3)

theorem line_configured : line.Configured := by unfold State.Configured; decide

theorem witness_DecodeOfEncodeIsIdentity : (Instr.bitrange 255 255 255).wf = true := by decide

theorem witness_EncodeOfDecodeIsIdentity : decodeWord 0xFFFFFF04#32 = .ok (.bitrange 255 255 255) := by decide

theorem witness_IllegalWordsAreAnswered :
    (∀ w ∈ [0x00000012#32, 0x00000000#32, 0x0000000A#32, 0x0000000F#32, 0x01010201#32],
      (offer w 0 [] State.reset).inCommand.word = w) ∧
    0x00000012#32 &&& 0x000000F0#32 ≠ 0#32 ∧ 0x00000000#32 &&& 0x0000000F#32 = 0x0#32 ∧
    0xA#32 ≤ 0x0000000A#32 &&& 0x0000000F#32 ∧ 0xA#32 ≤ 0x0000000F#32 &&& 0x0000000F#32 ∧
    0x01010201#32 &&& 0x0000000F#32 = 0x1#32 ∧ 0x01010201#32 &&& 0xFF000000#32 ≠ 0#32 :=
  ⟨fun _ _ => rfl, by decide, by decide, by decide, by decide, by decide, by decide⟩

theorem witness_StepRunsTheDecodedCommand :
    busy.hostRefusal = none ∧ busy.edge.rst = false ∧ busy.edge.inValid = true ∧ busy.inReady = true ∧
      decodeWord busy.inCommand.word = .ok .encode := by decide

theorem witness_PlacedCommandRunsNext : 1 ≤ State.reset.params.qcap ∧ (Instr.config 255 255).wf = true := by decide

theorem witness_TransfersAreIndependent :
    busy.edge.rst = false ∧ busy.inTransfer = true ∧ busy.outTransfer = true ∧ (nextOf busy).isSome = true ∧
    (let s := { busy with edges := [quiet true] }
     s.edge.rst = false ∧ s.inTransfer = false ∧ s.outTransfer = true ∧ (nextOf s).isSome = true) := by decide

theorem witness_ErrStickyFollowsDeliveries :
    (nextOf busy).isSome = true ∧ busy.edge.outReady = true ∧ busy.outResponse = some failure ∧
      (nextOf { busy with edges := [resetting] }).isSome = true := by decide

/-- The clauses of a reset edge: no offer, an offer that is held, an offer that is not. -/
theorem witness_ResetEdgeClears :
    let s := { busy with edges := [resetting] }
    s.edge.rst = true ∧ s.offered = none ∧ s.edge.inValid = true ∧ s.inCommand = ⟨2#32, 1, 0⟩ ∧
      s.inCommand ≠ ⟨2#32, 12, 0⟩ := by decide

theorem witness_ResetStateIsLegal : (⟨.w32, 32, 1, 1, 0⟩ : Params).Legal ∧ Params.reference.Legal := by decide

theorem witness_CommandBeforeResetIsRefused :
    let s := { busy with started := false }
    s.started = false ∧ s.edge.rst = false ∧ s.edge.inValid = true ∧
      ({ s with edges := [quiet true] } : State).edge.inValid = false ∧ s.offered = none := by decide

theorem witness_OfferedCommandIsHeld :
    let s := { busy with stall := 1, edges := [offering ⟨2#32, 11, 0⟩ true, offering ⟨2#32, 11, 0⟩ true] }
    let s' := { busy with stall := 1, edges := [offering ⟨2#32, 11, 0⟩ true, offering ⟨2#32, 12, 0⟩ true] }
    (s.edge.inValid = true ∧ s.inTransfer = false ∧
      (nextOf s).any (fun t => t.started && t.edge.inValid && t.inCommand == s.inCommand) = true) ∧
    (nextOf s').any (fun t => t.started && !(t.inCommand == s'.inCommand)) = true ∧
    busy.inTransfer = true ∧ (nextOf busy).any State.started = true := by decide

theorem witness_PresentedResponseIsHeld :
    let s := { busy with edges := [quiet false, quiet false] }
    s.outResponse = some failure ∧ s.edge.outReady = false ∧ (nextOf s).any (fun t => !t.edge.rst) = true ∧
      State.reset.queue = [] := by decide

theorem witness_InReadyComesBack :
    let s := { busy with stall := 64 }
    s.started = true ∧ s.edge.rst = false ∧ s.queue.length < s.params.qcap ∧ (nextOf s).isSome = true ∧
      s.inReady = false ∧ ({ busy with edges := [resetting] } : State).edge.rst = true ∧
      ({ busy with queue := List.replicate 4 ⟨failure, 0⟩ } : State).queue.length = busy.params.qcap := by decide

/-- The same machine with the longest legal stall is legal. -/
theorem stalled_inv : ({ busy with stall := 64 } : State).Inv :=
  { busy_inv with stall := fun _ => by decide }

theorem witness_LatencyIsBounded :
    busy.params.Legal ∧ busy.edge.rst = false ∧ busy.inTransfer = true ∧ (nextOf busy).isSome = true := by decide

theorem witness_EveryStepKeepsTheInvariant : busy.Inv ∧ (nextOf busy).isSome = true := ⟨busy_inv, by decide⟩

theorem witness_ResponsesLeaveInCommandOrder :
    busy.started = true ∧ (∀ e ∈ busy.edges.take 2, e.rst = false) ∧
      (busy.record 2).map (fun r => (r.accepted.length, r.delivered)) = some (1, [failure]) := by decide

theorem witness_FailureLeavesNoTrace :
    (match exec (.rotl 0 1) busy with
      | .next t => t.lastResponse
      | .fault _ => none
      | .refused _ => none) = some failure ∧ failure.status.code ≠ 0#4 ∧
    (match accept (offer 0x00000005#32 0 [] busy) with
      | .next t => t.lastResponse
      | .fault _ => none
      | .refused _ => none) = some failure := by decide

/-- Two machines that agree for DECODE 2 and differ in the lane above it, in `in_data`, in `Q` and in LAT. -/
theorem witness_ResponseDependsOnlyOnCommandAndCfg :
    let s := offer 3#32 7 [3, 2, 1] busy
    let u := offer 3#32 8 [3, 2, 9] { configured 2 2 with params := ⟨.w64, 8, 1, 1, 0⟩ }
    s.params.width = u.params.width ∧ s.params.dmax = u.params.dmax ∧ s.params ≠ u.params ∧ s.cfg = u.cfg ∧ (∀ j < 2, s.inLane j = u.inLane j) ∧ s.inLane 2 ≠ u.inLane 2 ∧
      s.inData ≠ u.inData := by decide

theorem witness_ConfigSetsTheCurveSpec :
    (1 ≤ 1 ∧ 1 ≤ busy.params.dmax ∧ 64 * 1 ≤ busy.params.iw) ∧ ¬ (65 * 1 ≤ busy.params.iw) ∧
      ¬ (9 ≤ busy.params.dmax) := by decide

theorem witness_EncodeFollowsTheStageChain :
    busy.cfg.Legal busy.params ∧ busy.cfg.valid = true ∧ busy.inData < 2 ^ (busy.curveN * busy.curveD) ∧
    (let s := offer 2#32 16 [] busy
     2 ^ (s.curveN * s.curveD) = s.inData) ∧ State.reset.cfg.valid = false :=
  ⟨fun _ => by decide, by decide, by decide, by decide, by decide⟩

theorem witness_EncodeStaysInTheGrid : busy.Configured ∧ busy.inData < 2 ^ (busy.curveN * busy.curveD) :=
  ⟨busy_configured, by decide⟩

theorem witness_EncodeOriginAndLine :
    line.Configured ∧ line.inData < 2 ^ (line.curveN * line.curveD) ∧ line.curveD = 1 ∧ 1 ≤ line.curveN ∧
      (offer 2#32 0 [] line).inData = 0 := ⟨line_configured, by decide, by decide, by decide, by decide⟩

theorem witness_EncodeWritesEveryLevel : busy.Configured ∧ busy.inData < 2 ^ (busy.curveN * busy.curveD) :=
  ⟨busy_configured, by decide⟩

/-- The clauses of DECODE: not configured, L ≠ D, a component equal to 2^N, a component one below it. -/
theorem witness_DecodeFollowsTheStageChain :
    busy.cfg.Legal busy.params ∧ busy.cfg.valid = true ∧ busy.curveD = 2 ∧ State.reset.cfg.valid = false ∧
    2 ^ busy.curveN ≤ (offer 3#32 0 [0, 4] busy).inLane 1 ∧
    (∀ j < 2, (offer 3#32 0 [3, 3] busy).inLane j < 2 ^ busy.curveN) :=
  ⟨fun _ => by decide, by decide, by decide, by decide, by decide, by decide⟩

theorem witness_DecodeInvertsEncode :
    let u := offer 3#32 0 [3, 2] busy
    busy.Configured ∧ u.params = busy.params ∧ u.cfg = busy.cfg ∧ busy.inData < 2 ^ (busy.curveN * busy.curveD) ∧
    exec .encode busy = .next (busy.answered ⟨.ok, 0, [3, 2, 0, 0, 0, 0, 0, 0]⟩) ∧
    ∀ j < busy.curveD, u.inLane j = [3, 2, 0, 0, 0, 0, 0, 0].getD j 0 :=
  ⟨busy_configured, rfl, rfl, by decide, rfl, by decide⟩

theorem witness_EncodeInvertsDecode :
    let s := offer 3#32 0 [3, 2] busy
    s.Configured ∧ busy.params = s.params ∧ busy.cfg = s.cfg ∧ (∀ j < s.curveD, s.inLane j < 2 ^ s.curveN) ∧
    exec (.decode s.curveD) s = .next (s.answered ⟨.ok, 11, zeroCoord s.params⟩) ∧ busy.inData = 11 :=
  ⟨busy_configured, rfl, rfl, by decide, rfl, by decide⟩

/-- 95 EN-22: 10 → (3, 3) and 11 → (3, 2). -/
theorem witness_ConsecutiveIndicesAreNeighbours :
    let s := offer 2#32 10 [] busy
    s.Configured ∧ busy.inData = s.inData + 1 ∧ busy.inData < 2 ^ (s.curveN * s.curveD) ∧
    exec .encode s = .next (s.answered ⟨.ok, 0, [3, 3, 0, 0, 0, 0, 0, 0]⟩) ∧
    exec .encode busy = .next (busy.answered ⟨.ok, 0, [3, 2, 0, 0, 0, 0, 0, 0]⟩) :=
  ⟨busy_configured, by decide, by decide, rfl, rfl⟩

theorem witness_UpdateKeepsTheOrientationLegal :
    1 ≤ 3 ∧ (Orientation.mk 7 2).e < 2 ^ 3 ∧ (Orientation.mk 7 2).d < 3 ∧ 7 < 2 ^ 3 := by decide

theorem witness_AllOnesHasDirectionZero : 1 ≤ 1 := by decide

theorem witness_LevelTransformsAreInverse :
    1 ≤ 3 ∧ (Orientation.mk 7 2).e < 2 ^ 3 ∧ (Orientation.mk 7 2).d < 3 ∧ 7 < 2 ^ 3 := by decide

/-- The clauses of BITRANGE at their edges: width IW and a full range; width IW + 1; end = width + 1; start = end + 1. -/
theorem witness_BitrangeExtracts :
    (64 ≤ busy.params.iw ∧ 64 ≤ 64 ∧ 0 ≤ 64) ∧ 65 > busy.params.iw ∧ 9 > 8 ∧ 5 > 4 ∧ 65 < 256 := by decide

theorem witness_RotlRotatesLeft : (1 ≤ 64 ∧ 64 ≤ busy.params.iw) ∧ 65 > busy.params.iw ∧ 255 < 256 := by decide

theorem witness_RotrRotatesRight : (1 ≤ 1 ∧ 1 ≤ busy.params.iw) ∧ 65 > busy.params.iw ∧ 255 < 256 := by decide

theorem witness_TsbCountsTrailingOnes : 0 ≤ busy.params.iw ∧ 64 ≤ busy.params.iw ∧ 65 > busy.params.iw := by decide

/-- 95 RT-20, RT-19: ROTL 0x9, 1, 4 gives 3. -/
theorem witness_RotrUndoesRotl :
    let s := offer 5#32 9 [] busy
    let u := offer 6#32 3 [] busy
    u.params = s.params ∧ 1 ≤ 4 ∧ 4 ≤ s.params.iw ∧
    exec (.rotl 4 1) s = .next (s.answered ⟨.ok, 3, zeroCoord s.params⟩) ∧ u.inData = 3 :=
  ⟨rfl, by decide, by decide, rfl, by decide⟩

/-- 95 GE-5: GRAYENC 6 gives 5. -/
theorem witness_GraydecUndoesGrayenc :
    let s := offer 7#32 6 [] busy
    let u := offer 8#32 5 [] busy
    u.params = s.params ∧ exec .grayenc s = .next (s.answered ⟨.ok, 5, zeroCoord s.params⟩) ∧ u.inData = 5 :=
  ⟨rfl, rfl, by decide⟩

theorem witness_OutputPortsCarryTheResponse : busy.Inv ∧ busy.outResponse = some failure := ⟨busy_inv, by decide⟩

theorem witness_AssembledLineIsTheCommand :
    assemble Params.reference (.decode 2 [3, 2]) = some ⟨0x00000203#32, 0, 3 + 2 ^ 64 * 2⟩ := by decide

theorem witness_EnumerationCoversTheDomain :
    Params.reference.Legal ∧ 1 ≤ 8 ∧ 8 ≤ Params.reference.dmax ∧ 8 * 8 ≤ Params.reference.iw := by decide

end Sys2Proof.Tests
end

section
/-! PROOF. The family 00_scope: the latency of a response (00 R8, 70 R118). -/

namespace Sys2Proof.Machine

/-! ## The latency of an acceptance -/

theorem State.one_le_latency (s : State) (h : s.params.Legal) : 1 ≤ s.latency := by
  obtain ⟨-, -, -, hlat⟩ := h
  exact le_min (le_max_left _ _) hlat

theorem State.latency_le_lat (s : State) : s.latency ≤ s.params.lat := min_le_right _ _

/-! ## The queue of responses across an edge -/

@[simp] theorem Entry.age_wait (e : Entry) : e.age.wait = e.wait - 1 := rfl

/-- An acceptance appends one entry to `Q`, and its wait is the latency chosen at the edge. -/
theorem accept_queue (s u : State) (h : accept s = .next u) : ∃ r, u.queue = s.queue ++ [⟨r, s.latency⟩] := by
  obtain ⟨cfg, r, ha, -⟩ := accept_answers s
  cases ha.symm.trans h
  exact ⟨r, rfl⟩

/-- The response delivered at an edge is in `Q` before it. -/
theorem State.queue_ne_nil_of_outTransfer (s : State) (h : s.outTransfer = true) : s.queue ≠ [] := by
  obtain ⟨r, rest, -, -, hq⟩ := s.outTransfer_cases h
  simp [hq]

/-- The waits after an edge: those of the entries that remain, each one edge nearer to 0. -/
theorem State.endEdge_waits (s t : State) :
    (s.endEdge t).queue.map Entry.wait =
      ((if s.outTransfer then t.queue.tail else t.queue).map Entry.wait).map (· - 1) := by
  simp [State.endEdge_queue]

/-- What remains of `Q` and a new entry: the delivery takes an older entry, never the new one. -/
theorem State.remaining_append (s : State) (e : Entry) :
    (if s.outTransfer then (s.queue ++ [e]).tail else s.queue ++ [e]) =
      (if s.outTransfer then s.queue.tail else s.queue) ++ [e] := by
  split_ifs with h
  · exact List.tail_append_of_ne_nil (s.queue_ne_nil_of_outTransfer h)
  · rfl

/-- Settles O16: the bounds are those of the chosen latency; the waits follow from the three cases of a step, of which the
reset edge is excluded. -/
theorem latencyIsBounded : Obligations.LatencyIsBounded := by
  intro s t hp hrst hstep
  refine ⟨s.one_le_latency hp, s.latency_le_lat, ?_⟩
  rcases step_cases s t hstep with ⟨hr, -, -⟩ | ⟨-, -, hin, rfl⟩ | ⟨-, -, hin, u, hu, rfl⟩
  · simp [hrst] at hr
  · simp [State.endEdge_waits, hin]
  · obtain ⟨r, hq⟩ := accept_queue s u hu
    rw [State.endEdge_waits, hq, s.remaining_append]
    simp [hin]

end Sys2Proof.Machine
end

section
/-! PROOF. The family 10_state: the reset values, the two channels of an edge, `err_sticky`, the ports, and the invariant
(10 R15 to R31). -/

namespace Sys2Proof

/-! ## The word of a command -/

/-- The decoder reads a well-formed command back from its word (30 R48, R49, R55). -/
theorem decodeWord_encodeWord (i : Instr) (hw : i.wf = true) : decodeWord (encodeWord i) = .ok i := by
  obtain ⟨hop, hrsv, hfa, hfb, hfc⟩ := Laws.WordFields.of_fields i hw
  cases i <;> simp [decodeWord, withZero, hop, hrsv, hfa, hfb, hfc, Instr.opcode, Instr.fields]

theorem tableWord_toNat (w : CmdWord) : tableWord 32 w.toNat = w := by
  rw [tableWord, Nat.mod_eq_of_lt w.isLt, BitVec.ofNat_toNat, BitVec.setWidth_eq]

/-- The legal widths of 00 R6 are at most 64. -/
theorem Params.iw_le (p : Params) : p.iw ≤ 64 := by
  unfold Params.iw
  cases p.width <;> decide

end Sys2Proof

namespace Sys2Proof.Machine

/-! ## Responses of the right widths (10 R26) -/

theorem zeroCoord_length (p : Params) : (zeroCoord p).length = p.dmax := List.length_replicate

/-- A response with data 0 and coord ZERO fits under every status: that is what an error response is (60 R99). -/
theorem Response.fits_zero (p : Params) (e : Status) : Response.Fits p ⟨e, 0, zeroCoord p⟩ where
  data := Nat.two_pow_pos _
  lanes := zeroCoord_length p
  lane c hc := by rw [List.eq_of_mem_replicate hc]; exact Nat.two_pow_pos _
  error _ := ⟨rfl, rfl⟩

/-- A successful response with an IW-bit scalar has the widths of 10 R26. -/
theorem Response.fits_data {p : Params} {x : Nat} (hx : x < 2 ^ p.iw) : Response.Fits p ⟨.ok, x, zeroCoord p⟩ :=
  { Response.fits_zero p .ok with
    data := hx
    error := fun h => absurd rfl ((Response.failed_iff _).1 h) }

/-- A successful response with a coordinate of DMAX lanes of IW bits has the widths of 10 R26. -/
theorem Response.fits_coord {p : Params} {coord : List Nat} (hlen : coord.length = p.dmax)
    (hlane : ∀ c ∈ coord, c < 2 ^ p.iw) : Response.Fits p ⟨.ok, 0, coord⟩ where
  data := Nat.two_pow_pos _
  lanes := hlen
  lane := hlane
  error h := absurd rfl ((Response.failed_iff _).1 h)

/-! ## Legal configurations (10 R20) -/

theorem CurveConfig.reset_legal (p : Params) : CurveConfig.reset.Legal p := fun h => Bool.noConfusion h

/-- A legal CurveSpec has at most IW levels. -/
theorem CurveConfig.Legal.n_le {p : Params} {c : CurveConfig} (h : c.Legal p) (hv : c.valid = true) :
    c.n.toNat ≤ p.iw := by
  obtain ⟨hd, -, hnd⟩ := h hv
  exact (Nat.le_mul_of_pos_right _ hd).trans hnd

/-- The pair of an accepted CONFIG fits the fields of `cfg`, so it is stored uncut and legal (42 R81, R82). -/
theorem CurveConfig.legal_of_specAccepted {p : Params} {d n : Nat} (hp : p.Legal) (h : specAccepted p d n = true) :
    CurveConfig.Legal p ⟨true, BitVec.ofNat 8 d, BitVec.ofNat 8 n⟩ := by
  intro _
  simp only [specAccepted, Bool.and_eq_true, decide_eq_true_eq] at h
  obtain ⟨⟨hd, hdmax⟩, hnd⟩ := h
  obtain ⟨-, hmax, -, -⟩ := hp
  have hd8 : d < 2 ^ 8 := by omega
  have hn8 : n < 2 ^ 8 := by
    have hn : n ≤ n * d := Nat.le_mul_of_pos_right n hd
    have hiw := p.iw_le
    omega
  simp only [BitVec.toNat_ofNat, Nat.mod_eq_of_lt hd8, Nat.mod_eq_of_lt hn8]
  exact ⟨hd, hdmax, hnd⟩

/-! ## What an acceptance answers -/

/-- The outcome `o` of an acceptance in `s` appends a response of the right widths, and leaves a legal `cfg`. -/
def State.LegalAnswer (s : State) (o : StepOutcome) : Prop :=
  ∃ cfg r, cfg.Legal s.params ∧ r.Fits s.params ∧ o = .next (State.answered { s with cfg := cfg } r)

theorem legalAnswer_execConfig {s : State} (hp : s.params.Legal) (hc : s.cfg.Legal s.params) (d n : Nat) :
    s.LegalAnswer (execConfig d n s) := by
  unfold execConfig
  split_ifs with h
  · exact ⟨_, _, CurveConfig.legal_of_specAccepted hp h, Response.fits_zero _ .ok, rfl⟩
  · exact ⟨s.cfg, _, hc, Response.fits_zero _ _, rfl⟩

section
variable {s : State} (hc : s.cfg.Legal s.params)
include hc

theorem legalAnswer_raise (e : Status) : s.LegalAnswer (raise e s) :=
  ⟨s.cfg, _, hc, Response.fits_zero _ e, rfl⟩

/-- A check that fails with an error response leaves the case that it does not apply. -/
theorem legalAnswer_unless_raise {P : Prop} [Decidable P] {e : Status} {o : StepOutcome}
    (h : ¬ P → s.LegalAnswer o) : s.LegalAnswer (if P then raise e s else o) := by
  split_ifs with hP
  · exact legalAnswer_raise hc e
  · exact h hP

theorem legalAnswer_respondData {x : Nat} (hx : x < 2 ^ s.params.iw) : s.LegalAnswer (respondData x s) :=
  ⟨s.cfg, _, hc, Response.fits_data hx, rfl⟩

/-- A result of at most IW bits is an IW-bit result. -/
theorem legalAnswer_respondData_of_le {x width : Nat} (hx : x < 2 ^ width) (hw : width ≤ s.params.iw) :
    s.LegalAnswer (respondData x s) :=
  legalAnswer_respondData hc (hx.trans_le (Nat.pow_le_pow_right (by decide) hw))

/-- ENCODE's lanes are below 2^N, and N is at most IW (42 R86). -/
theorem legalAnswer_execEncode : s.LegalAnswer (execEncode s) := by
  refine legalAnswer_unless_raise hc fun hv => legalAnswer_unless_raise hc fun _ => ?_
  have hn : s.curveN ≤ s.params.iw := hc.n_le (by simpa using hv)
  refine ⟨s.cfg, _, hc, Response.fits_coord (encPrefix_length ..) fun c hmem => ?_, rfl⟩
  obtain ⟨j, hj, rfl⟩ := List.mem_iff_getElem.1 hmem
  rw [← List.getD_eq_getElem _ 0 hj]
  exact (encLevels_lt ..).trans_le (Nat.pow_le_pow_right (by decide) hn)

/-- DECODE's index has N·D bits, at most IW (42 R87). -/
theorem legalAnswer_execDecode (l : Nat) : s.LegalAnswer (execDecode l s) := by
  refine legalAnswer_unless_raise hc fun hv => legalAnswer_unless_raise hc fun _ =>
    legalAnswer_unless_raise hc fun _ => ?_
  obtain ⟨-, -, hnd⟩ := hc (by simpa using hv)
  exact legalAnswer_respondData_of_le hc (decLevels_idx_lt ..) hnd

theorem legalAnswer_execBitrange (width start stop : Nat) : s.LegalAnswer (execBitrange width start stop s) :=
  legalAnswer_unless_raise hc fun _ => legalAnswer_respondData_of_le hc (bitRange_lt ..) (by omega)

theorem legalAnswer_execRotl (width amount : Nat) : s.LegalAnswer (execRotl width amount s) :=
  legalAnswer_unless_raise hc fun _ => legalAnswer_respondData_of_le hc (rotateLeft_lt ..) (by omega)

theorem legalAnswer_execRotr (width amount : Nat) : s.LegalAnswer (execRotr width amount s) :=
  legalAnswer_unless_raise hc fun _ => legalAnswer_respondData_of_le hc (rotateRight_lt ..) (by omega)

/-- A count of at most `width` ones is below 2^width (40 R72). -/
theorem legalAnswer_execTsb (width : Nat) : s.LegalAnswer (execTsb width s) :=
  legalAnswer_unless_raise hc fun _ =>
    legalAnswer_respondData_of_le hc ((trailingSetBits_le ..).trans_lt Nat.lt_two_pow_self) (by omega)

end

/-- Every command answers with a response of the right widths, and leaves a legal `cfg`. -/
theorem legalAnswer_exec {s : State} (hp : s.params.Legal) (hc : s.cfg.Legal s.params) (i : Instr) :
    s.LegalAnswer (exec i s) := by
  cases i with
  | config d n => exact legalAnswer_execConfig hp hc d n
  | encode => exact legalAnswer_execEncode hc
  | decode l => exact legalAnswer_execDecode hc l
  | bitrange width start stop => exact legalAnswer_execBitrange hc width start stop
  | rotl width amount => exact legalAnswer_execRotl hc width amount
  | rotr width amount => exact legalAnswer_execRotr hc width amount
  | grayenc => exact legalAnswer_respondData hc (grayEncode_lt s.inData_lt)
  | graydec => exact legalAnswer_respondData hc (grayDecode_lt s.inData_lt)
  | tsb width => exact legalAnswer_execTsb hc width

/-- So does the acceptance of any command word, legal or not. -/
theorem legalAnswer_accept {s : State} (hp : s.params.Legal) (hc : s.cfg.Legal s.params) :
    s.LegalAnswer (accept s) := by
  unfold accept
  split
  next i _ => exact legalAnswer_exec hp hc i
  next => exact legalAnswer_raise hc _

/-! ## The invariant across an edge -/

theorem State.chosenStall_le (s : State) : s.chosenStall ≤ s.params.stallMax := min_le_right _ _

theorem State.nextStall_le {s : State} (h : s.stall ≤ s.params.stallMax) : s.nextStall ≤ s.params.stallMax := by
  unfold State.nextStall
  split_ifs
  · exact h
  · exact s.chosenStall_le
  · omega

/-- An entry after the end of an edge is an older entry, one edge nearer to being available. -/
theorem State.mem_endEdge_queue {s u : State} {e : Entry} (h : e ∈ (s.endEdge u).queue) :
    ∃ e' ∈ u.queue, e = e'.age := by
  rw [State.endEdge_queue] at h
  obtain ⟨e', he', rfl⟩ := List.mem_map.1 h
  refine ⟨e', ?_, rfl⟩
  split_ifs at he'
  · exact List.mem_of_mem_tail he'
  · exact he'

theorem State.endEdge_queue_length_le (s u : State) : (s.endEdge u).queue.length ≤ u.queue.length := by
  rw [State.endEdge_queue, List.length_map]
  split_ifs
  · simp
  · rfl

/-- What holds in the middle of an edge that began in `s`, between the acceptance and the passing of time: as the
invariant, but a response accepted at this edge may still have its whole latency before it. -/
structure State.MidEdge (s u : State) : Prop where
  params : u.params = s.params
  started : u.started = s.started
  cfg : s.started = true → u.cfg.Legal s.params
  room : s.started = true → u.queue.length ≤ s.params.qcap
  fits : s.started = true → ∀ e ∈ u.queue, e.resp.Fits s.params ∧ e.wait ≤ s.params.lat

/-- An edge without an acceptance is between its two halves where it began. -/
theorem State.Inv.midEdge {s : State} (hs : s.Inv) : s.MidEdge s where
  params := rfl
  started := rfl
  cfg := hs.cfg
  room := hs.room
  fits hst e he := ⟨(hs.fits hst e he).1, (hs.fits hst e he).2.le⟩

/-- An acceptance has room in `Q`, and its latency is at most LAT. -/
theorem State.Inv.midEdge_accept {s u : State} (hs : s.Inv) (hin : s.inTransfer = true) (hu : accept s = .next u) :
    s.MidEdge u := by
  obtain ⟨hst, -, -, -, hroom⟩ := s.inTransfer_cases hin
  obtain ⟨cfg, r, hcfg, hr, ha⟩ := legalAnswer_accept hs.params (hs.cfg hst)
  cases ha.symm.trans hu
  refine ⟨rfl, rfl, fun _ => hcfg, fun _ => ?_, fun _ e he => ?_⟩
  · simpa using hroom
  · rcases List.mem_append.1 he with hold | hnew
    · exact hs.midEdge.fits hst e hold
    · cases List.mem_singleton.1 hnew
      exact ⟨hr, s.latency_le_lat⟩

/-- One edge of time turns the bound LAT on the waits into the strict bound of the invariant. -/
theorem State.MidEdge.endEdge_inv {s u : State} (h : s.MidEdge u) (hs : s.Inv) : (s.endEdge u).Inv := by
  obtain ⟨-, -, -, hlat⟩ := hs.params
  constructor <;> simp only [State.endEdge_params, State.endEdge_started, h.params, h.started]
  case params => exact hs.params
  case cfg => simpa using h.cfg
  case room => exact fun hst => (s.endEdge_queue_length_le u).trans (h.room hst)
  case fits =>
    intro hst e he
    obtain ⟨e', he', rfl⟩ := State.mem_endEdge_queue he
    obtain ⟨hfits, hwait⟩ := h.fits hst e' he'
    exact ⟨hfits, by rw [Entry.age_wait]; omega⟩
  case stall => exact fun hst => State.nextStall_le (hs.stall hst)

/-- The reset values of 10 R31 are legal. -/
theorem State.inv_of_reset_values {s : State} (hp : s.params.Legal) (hcfg : s.cfg = CurveConfig.reset)
    (hq : s.queue = []) (hstall : s.stall ≤ s.params.stallMax) : s.Inv where
  params := hp
  cfg _ := hcfg ▸ CurveConfig.reset_legal _
  room _ := by simp [hq]
  fits _ := by simp [hq]
  stall _ := hstall

/-- A reset edge gives a legal state whatever came before it, if the parameters are legal. -/
theorem State.resetEdge_inv {s : State} (hp : s.params.Legal) : s.resetEdge.Inv :=
  State.inv_of_reset_values hp rfl rfl s.chosenStall_le

/-- Settles O17: a reset edge makes the state legal; any other edge keeps what holds in its middle, and then time passes. -/
theorem everyStepKeepsTheInvariant : Obligations.EveryStepKeepsTheInvariant := by
  intro s t hs hstep
  rcases step_cases s t hstep with ⟨-, -, rfl⟩ | ⟨-, -, -, rfl⟩ | ⟨-, -, hin, u, hu, rfl⟩
  · exact State.resetEdge_inv hs.params
  · exact hs.midEdge.endEdge_inv hs
  · exact (hs.midEdge_accept hin hu).endEdge_inv hs

/-! ## The two channels of an edge -/

/-- The responses after the end of an edge: the delivered one is gone. -/
theorem State.endEdge_responses (s u : State) :
    (s.endEdge u).responses = if s.outTransfer then u.responses.tail else u.responses := by
  have hage : Entry.resp ∘ Entry.age = Entry.resp := rfl
  rw [State.responses, State.endEdge_queue, List.map_map, hage]
  split_ifs
  · exact List.map_tail
  · rfl

/-- The same after an acceptance: the new response stays, at the end. -/
theorem State.endEdge_responses_of_answered {s u : State} {e : Entry} (hq : u.queue = s.queue ++ [e]) :
    (s.endEdge u).responses = (if s.outTransfer then s.responses.tail else s.responses) ++ [e.resp] := by
  have hu : u.responses = s.responses ++ [e.resp] := by simp [State.responses, hq]
  rw [State.endEdge_responses, hu]
  split_ifs with h
  · exact List.tail_append_of_ne_nil (by simpa [State.responses] using s.queue_ne_nil_of_outTransfer h)
  · rfl

/-- Settles O8: of the three cases of a step the reset edge is excluded, and the other two are the two statements about the
input channel. -/
theorem transfersAreIndependent : Obligations.TransfersAreIndependent := by
  intro s t hrst hstep
  rcases step_cases s t hstep with ⟨hr, -, -⟩ | ⟨-, -, hin, rfl⟩ | ⟨-, -, hin, u, hu, rfl⟩
  · simp [hrst] at hr
  · simp [hin, State.endEdge_responses]
  · obtain ⟨cfg, r, ha, -⟩ := accept_answers s
    cases ha.symm.trans hu
    refine ⟨by simp, by simp, rfl, by simp [hin], fun _ => ⟨_, r, hu, ?_, by simp, ?_⟩⟩
    · simp [State.responses]
    · exact State.endEdge_responses_of_answered (e := ⟨r, s.latency⟩) rfl

/-! ## `err_sticky` (10 R23) -/

theorem State.outTransfer_iff (s : State) :
    s.outTransfer = true ↔ s.edge.outReady = true ∧ ∃ r, s.outResponse = some r := by
  simp [State.outTransfer, State.outValid, Option.isSome_iff_exists]

theorem Response.failed_iff_code (r : Response) : r.failed = true ↔ r.status.code ≠ 0#4 := by simp [Response.failed]

/-- The end of an edge sets `err_sticky` exactly if a failed response is delivered there. An acceptance at the same edge
changes nothing of it, because it leaves the delivered head of `Q` in its place. -/
theorem State.endEdge_errSticky_iff {s u : State} {added : List Entry} (hq : u.queue = s.queue ++ added)
    (he : u.errSticky = s.errSticky) :
    (s.endEdge u).errSticky = true ↔
      s.errSticky = true ∨ s.edge.outReady = true ∧ ∃ r, s.outResponse = some r ∧ r.status.code ≠ 0#4 := by
  rw [State.endEdge_errSticky]
  split_ifs with hout
  · obtain ⟨r, rest, hready, hresp, hqs⟩ := s.outTransfer_cases hout
    rw [u.deliver_errSticky_cons ⟨r, 0⟩ (rest ++ added) (by rw [hq, hqs]; rfl)]
    simp [stickyAfter, he, hready, hresp, r.failed_iff_code]
  · rw [State.outTransfer_iff] at hout
    rw [he]
    refine (or_iff_left ?_).symm
    rintro ⟨hready, r, hresp, -⟩
    exact hout ⟨hready, r, hresp⟩

theorem State.outputs_of_started {s : State} (h : s.started = true) :
    s.outputs = some
      { inReady := s.inReady
        outValid := s.outValid
        out := s.outResponse.map fun r => (r.status.code, r.data, packLanes s.params.iw r.coord)
        errSticky := s.errSticky } := by
  rw [State.outputs, if_pos h]

/-- Settles O9: the reset edge clears the bit, and the two other cases of a step are the end of an edge, with an acceptance
before it or not. -/
theorem errStickyFollowsDeliveries : Obligations.ErrStickyFollowsDeliveries := by
  intro s t hstep
  refine and_assoc.1 ⟨?_, fun hst => ⟨_, State.outputs_of_started hst, rfl⟩⟩
  rcases step_cases s t hstep with ⟨hr, -, rfl⟩ | ⟨hr, -, -, rfl⟩ | ⟨hr, -, -, u, hu, rfl⟩
  · simp [hr]
  · exact ⟨by simp [hr], fun _ => State.endEdge_errSticky_iff (List.append_nil _).symm rfl⟩
  · obtain ⟨cfg, r, ha, -⟩ := accept_answers s
    cases ha.symm.trans hu
    exact ⟨by simp [hr], fun _ => State.endEdge_errSticky_iff rfl rfl⟩

/-! ## Every command -/

/-- Settles O19: the frame is that of `exec_answers`, whose only change of `cfg` is by a CONFIG. -/
theorem everyCommandIsAnsweredOnce : Obligations.EveryCommandIsAnsweredOnce := by
  intro i s
  obtain ⟨cfg, r, h, hcfg⟩ := exec_answers i s
  refine ⟨_, r, h, rfl, rfl, rfl, rfl, rfl, rfl, rfl, rfl, fun hi => ?_⟩
  rcases hcfg with hsame | ⟨-, d, n, hconfig, -⟩
  · exact hsame
  · exact absurd hconfig (hi d n)

/-! ## The ports (10 R24, R25) -/

/-- A lane of a packed bus is its component, cut to the lane. -/
theorem laneOf_packLanes (iw : Nat) (cs : List Nat) {j : Nat} (hj : j < cs.length) :
    laneOf iw (packLanes iw cs) j = cs.getD j 0 % 2 ^ iw := by
  have h := congrArg (·[j]?) (unpackLanes_packLanes iw cs)
  simpa [unpackLanes, hj] using h

/-- Settles O41: the response on the port is the head of `Q`, which the invariant gives DMAX lanes of IW bits, so that no
lane is cut. -/
theorem outputPortsCarryTheResponse : Obligations.OutputPortsCarryTheResponse := by
  intro s r hinv hout
  obtain ⟨hst, -, rest, hq⟩ := (s.outResponse_eq_some r).1 hout
  obtain ⟨hfits, -⟩ := hinv.fits hst ⟨r, 0⟩ (by simp [hq])
  refine ⟨packLanes s.params.iw r.coord, ?_, ?_, fun j hj => ?_⟩
  · simp [State.outputs_of_started hst, State.outValid, hout]
  · rw [← hfits.lanes]
    exact packLanes_lt _ _
  · have hlen : j < r.coord.length := hfits.lanes ▸ hj
    rw [← laneOf_eq, laneOf_packLanes _ _ hlen, List.getD_eq_getElem _ _ hlen]
    exact Nat.mod_eq_of_lt (hfits.lane _ (List.getElem_mem hlen))

/-! ## The assembler (30 R56) -/

/-- The assembler accepts exactly the lines that fit. -/
theorem assemble_eq_some (p : Params) (a : AsmLine) (c : Command) :
    assemble p a = some c ↔
      (a.instr.wf = true ∧ a.lengthOk = true ∧ a.data < 2 ^ p.iw ∧ a.coord.length ≤ p.dmax ∧
        ∀ x ∈ a.coord, x < 2 ^ p.iw) ∧
      c = ⟨encodeWord a.instr, a.data, packLanes p.iw a.coord⟩ := by
  simp only [assemble, AsmLine.fits, Option.ite_none_right_eq_some, Option.some.injEq, Bool.and_eq_true,
    decide_eq_true_eq, List.all_eq_true, and_assoc, eq_comm (a := c)]

/-- A command whose payload fits the ports is sampled uncut. -/
theorem Command.sample_eq_self {p : Params} {c : Command} (hd : c.data < 2 ^ p.iw)
    (hc : c.coord < 2 ^ (p.dmax * p.iw)) : c.sample p = c := by
  simp [Command.sample, packLanes_unpackLanes, Nat.mod_eq_of_lt hd, Nat.mod_eq_of_lt hc]

/-- Settles O42: an accepted line fits, so neither its word nor its scalar nor a lane is cut. -/
theorem assembledLineIsTheCommand : Obligations.AssembledLineIsTheCommand := by
  intro p a c h
  obtain ⟨⟨hwf, -, hdata, hlen, hlane⟩, rfl⟩ := (assemble_eq_some p a c).1 h
  have hbus : packLanes p.iw a.coord < 2 ^ (p.dmax * p.iw) :=
    (packLanes_lt _ _).trans_le (Nat.pow_le_pow_right (by decide) (Nat.mul_le_mul_right _ hlen))
  refine ⟨decodeWord_encodeWord _ hwf, Command.sample_eq_self hdata hbus, rfl, ?_⟩
  rw [unpackLanes_packLanes]
  exact (List.map_congr_left fun x hx => Nat.mod_eq_of_lt (hlane x hx)).trans (List.map_id _)

/-! ## The command a step runs -/

/-- A step at which the input channel transfers is the acceptance and then the end of the edge (70 R114). -/
theorem step_of_inTransfer {s u : State} (h : s.hostRefusal = none) (hin : s.inTransfer = true)
    (hu : accept s = .next u) : step s = .next (s.endEdge u) := by
  obtain ⟨-, hrst, -⟩ := s.inTransfer_cases hin
  simp [step, h, hrst, hin, hu, mapNext]

theorem accept_of_decodeWord {s : State} {i : Instr} (h : decodeWord s.inCommand.word = .ok i) :
    accept s = exec i s := by
  simp [accept, h]

/-- Settles O6: every command has a next state, and the transfer makes the step its acceptance. -/
theorem stepRunsTheDecodedCommand : Obligations.StepRunsTheDecodedCommand := by
  intro s i hhost _ hvalid hready hi
  obtain ⟨cfg, r, h, -⟩ := exec_answers i s
  exact ⟨_, h, step_of_inTransfer hhost (by simp [State.inTransfer, hvalid, hready])
    ((accept_of_decodeWord hi).trans h)⟩

/-! ## A placed command (log 5) -/

theorem State.withFetchWord_hostRefusal (s : State) (nbits w : Nat) :
    (s.withFetchWord nbits w).hostRefusal = none := rfl

theorem State.withFetchWord_word (s : State) (nbits w : Nat) :
    (s.withFetchWord nbits w).inCommand.word = tableWord nbits w := rfl

/-- A placed command finds the device ready: it is started, does not stall, and has room in `Q`. -/
theorem State.withFetchWord_inReady {s : State} (h : 1 ≤ s.params.qcap) (nbits w : Nat) :
    (s.withFetchWord nbits w).inReady = true := by
  have hroom : (s.withFetchWord nbits w).full = false := by
    simp only [State.full, State.withFetchWord, List.length_take, decide_eq_false_iff_not]
    omega
  rw [State.inReady, hroom]
  rfl

/-- Settles O7: the placed word meets the hypotheses of O6 and decodes to the command. -/
theorem placedCommandRunsNext : Obligations.PlacedCommandRunsNext := by
  intro s i hq hwf
  refine stepRunsTheDecodedCommand _ i (s.withFetchWord_hostRefusal _ _) rfl rfl (State.withFetchWord_inReady hq _ _) ?_
  rw [State.withFetchWord_word, tableWord_toNat]
  exact decodeWord_encodeWord i hwf

/-! ## Reset (10 R31) -/

theorem State.resetWith_inv {p : Params} (hp : p.Legal) : (State.resetWith p).Inv :=
  State.inv_of_reset_values hp rfl rfl (Nat.zero_le _)

/-- Settles O11: the values by definition, the invariant by `resetWith_inv`, for the reference parameters too. -/
theorem resetStateIsLegal : Obligations.ResetStateIsLegal := by
  intro p hp
  exact ⟨rfl, rfl, rfl, rfl, State.resetWith_inv hp, rfl, State.resetWith_inv (by decide)⟩

end Sys2Proof.Machine
end

section
/-! PROOF. The family 20_memory: what a response depends on (20 R42), and the order of the responses over a run of edges
(20 R39 to R41). -/

namespace Sys2Proof.Machine

/-! ## What DECODE reads of a coordinate -/

section
variable {dim : Nat} {coord coord' : List Nat} (h : ∀ j < dim, coord.getD j 0 = coord'.getD j 0)
include h

/-- Step 1 of a DECODE level reads the components below D only (42 R87). -/
theorem gatherBits_congr (k : Nat) : gatherBits dim k coord = gatherBits dim k coord' := by
  refine Nat.eq_of_testBit_eq fun j => ?_
  rw [gatherBits_testBit, gatherBits_testBit]
  by_cases hj : j < dim
  · rw [h j hj]
  · simp [hj]

theorem decLevels_congr (n : Nat) : decLevels coord dim n = decLevels coord' dim n := by
  simp only [decLevels, decLevel, gatherBits_congr h]

theorem coordOutOfRange_congr (n : Nat) : coordOutOfRange coord dim n = coordOutOfRange coord' dim n := by
  rw [Bool.eq_iff_iff]
  simp only [coordOutOfRange, List.any_eq_true, List.mem_range, decide_eq_true_eq]
  exact exists_congr fun j => and_congr_right fun hj => by rw [h j hj]

end

/-! ## The same answer of two machines -/

/-- The outcomes `o` in `s` and `o'` in `u` append the same response, and `cfg` is kept in both or set to one value. -/
def SameAnswer (s u : State) (o o' : StepOutcome) : Prop :=
  ∃ r cfg cfg', o = .next (State.answered { s with cfg := cfg } r) ∧
    o' = .next (State.answered { u with cfg := cfg' } r) ∧ (cfg = s.cfg ∧ cfg' = u.cfg ∨ cfg = cfg')

theorem sameAnswer_respond (s u : State) (st : Status) (data : Nat) (coord : List Nat) :
    SameAnswer s u (respond st data coord s) (respond st data coord u) :=
  ⟨_, s.cfg, u.cfg, rfl, rfl, .inl ⟨rfl, rfl⟩⟩

theorem zeroCoord_congr {p q : Params} (h : p.dmax = q.dmax) : zeroCoord p = zeroCoord q :=
  congrArg (List.replicate · 0) h

section
variable {s u : State} (hdmax : s.params.dmax = u.params.dmax)
include hdmax

theorem sameAnswer_raise (e : Status) : SameAnswer s u (raise e s) (raise e u) := by
  rw [raise, raise, zeroCoord_congr hdmax]
  exact sameAnswer_respond s u e 0 _

/-- A result computed from `in_data` by `f` (40 R66). -/
theorem sameAnswer_respondData (f : Nat → Nat) (hd : s.inData = u.inData) :
    SameAnswer s u (respondData (f s.inData) s) (respondData (f u.inData) u) := by
  rw [respondData, respondData, zeroCoord_congr hdmax, hd]
  exact sameAnswer_respond s u .ok _ _

/-- A check with the same result in both machines leaves the case that it fails in neither. -/
theorem sameAnswer_unless_raise {P Q : Prop} [Decidable P] [Decidable Q] (hPQ : P ↔ Q) {e : Status}
    {o o' : StepOutcome} (h : ¬ P → SameAnswer s u o o') :
    SameAnswer s u (if P then raise e s else o) (if Q then raise e u else o') := by
  by_cases hP : P
  · rw [if_pos hP, if_pos (hPQ.1 hP)]
    exact sameAnswer_raise hdmax e
  · rw [if_neg hP, if_neg (mt hPQ.2 hP)]
    exact h hP

theorem sameAnswer_execConfig (hiw : s.params.iw = u.params.iw) (d n : Nat) :
    SameAnswer s u (execConfig d n s) (execConfig d n u) := by
  have hacc : specAccepted s.params d n = specAccepted u.params d n := by rw [specAccepted, specAccepted, hiw, hdmax]
  unfold execConfig
  rw [hacc, zeroCoord_congr hdmax]
  split_ifs
  · exact ⟨_, _, _, rfl, rfl, .inr rfl⟩
  · exact sameAnswer_raise hdmax _

theorem sameAnswer_execEncode (hcfg : s.cfg = u.cfg) (hdata : s.inData = u.inData) :
    SameAnswer s u (execEncode s) (execEncode u) := by
  unfold execEncode State.curveD State.curveN
  rw [hcfg, hdata, hdmax]
  exact sameAnswer_unless_raise hdmax .rfl fun _ => sameAnswer_unless_raise hdmax .rfl fun _ => sameAnswer_respond ..

/-- DECODE reads the lanes below D, and D = L once the dimensions have been compared (42 R88). -/
theorem sameAnswer_execDecode (hcfg : s.cfg = u.cfg) {l : Nat} (hlane : ∀ j < l, s.inLane j = u.inLane j) :
    SameAnswer s u (execDecode l s) (execDecode l u) := by
  unfold execDecode State.curveD State.curveN
  rw [hcfg]
  refine sameAnswer_unless_raise hdmax .rfl fun _ => sameAnswer_unless_raise hdmax .rfl fun hl => ?_
  have hlanes : ∀ j < u.cfg.d.toNat, s.inLanes.getD j 0 = u.inLanes.getD j 0 := fun j hj => hlane j (by omega)
  rw [coordOutOfRange_congr hlanes, decLevels_congr hlanes, zeroCoord_congr hdmax]
  exact sameAnswer_unless_raise hdmax .rfl fun _ => sameAnswer_respond ..

/-- Two machines of one IW and DMAX that agree on what a command uses answer it alike (20 R42). -/
theorem sameAnswer_exec (hw : s.params.width = u.params.width) {i : Instr} (h : agreeFor i s u) :
    SameAnswer s u (exec i s) (exec i u) := by
  have hiw : s.params.iw = u.params.iw := congrArg IndexWidth.bits hw
  cases i with
  | config d n => exact sameAnswer_execConfig hdmax hiw d n
  | encode =>
    obtain ⟨hcfg, hdata⟩ := h
    exact sameAnswer_execEncode hdmax hcfg hdata
  | decode l =>
    obtain ⟨hcfg, hlane⟩ := h
    exact sameAnswer_execDecode hdmax hcfg hlane
  | bitrange width start stop =>
    exact sameAnswer_unless_raise hdmax (by rw [hiw]) fun _ => sameAnswer_respondData hdmax (bitRange · width start stop) h
  | rotl width amount =>
    exact sameAnswer_unless_raise hdmax (by rw [hiw]) fun _ => sameAnswer_respondData hdmax (rotateLeft · amount width) h
  | rotr width amount =>
    exact sameAnswer_unless_raise hdmax (by rw [hiw]) fun _ => sameAnswer_respondData hdmax (rotateRight · amount width) h
  | grayenc => exact sameAnswer_respondData hdmax grayEncode h
  | graydec => exact sameAnswer_respondData hdmax grayDecode h
  | tsb width =>
    exact sameAnswer_unless_raise hdmax (by rw [hiw]) fun _ => sameAnswer_respondData hdmax (trailingSetBits · width) h

end

/-- Settles O21: the same answer, read off `Q`. -/
theorem responseDependsOnlyOnCommandAndCfg : Obligations.ResponseDependsOnlyOnCommandAndCfg := by
  intro i s u hw hdmax h
  obtain ⟨r, cfg, cfg', hs, hu, hcfg⟩ := sameAnswer_exec hdmax hw h
  exact ⟨r, _, _, hs, hu, by simp [State.responses], by simp [State.responses], hcfg⟩

/-! ## The abstract converter answers as the machine does -/

/-- Machines with the same `cfg` and the same command on the ports agree on what any command uses. -/
theorem agreeFor_of_inCommand {s u : State} (hp : s.params = u.params) (hcfg : s.cfg = u.cfg)
    (hcmd : s.inCommand = u.inCommand) (i : Instr) : agreeFor i s u := by
  have hdata : s.inData = u.inData := congrArg Command.data hcmd
  have hlane : ∀ j, s.inLane j = u.inLane j := by simp [State.inLane, State.inLanes, hp, hcmd]
  cases i with
  | config d n => trivial
  | encode => exact ⟨hcfg, hdata⟩
  | decode l => exact ⟨hcfg, fun j _ => hlane j⟩
  | _ => exact hdata

theorem sameAnswer_accept {s u : State} (hp : s.params = u.params) (hcfg : s.cfg = u.cfg)
    (hcmd : s.inCommand = u.inCommand) : SameAnswer s u (accept s) (accept u) := by
  unfold accept
  rw [← hcmd]
  split
  next i _ =>
    exact sameAnswer_exec (congrArg Params.dmax hp) (congrArg Params.width hp) (agreeFor_of_inCommand hp hcfg hcmd i)
  next => exact sameAnswer_raise (congrArg Params.dmax hp) _

/-- A command taken from the ports of `s` is already cut to their width, so the bare machine sees the same. -/
theorem State.bare_inCommand (s : State) (cfg : CurveConfig) :
    (State.bare s.params cfg s.inCommand).inCommand = s.inCommand :=
  Command.sample_sample s.params s.edge.cmd

/-- The acceptance of a command appends the abstract converter's response and leaves its configuration. -/
theorem accept_eq_replyTo (s : State) :
    ∃ r cfg, accept s = .next (State.answered { s with cfg := cfg } r) ∧
      replyTo s.params s.cfg s.inCommand = some (r, cfg) := by
  obtain ⟨r, cfg, cfg', hs, hbare, hcfg⟩ :=
    sameAnswer_accept (s := s) (u := State.bare s.params s.cfg s.inCommand) rfl rfl (s.bare_inCommand s.cfg).symm
  have hsame : cfg = cfg' := hcfg.elim (fun hkept => hkept.1.trans hkept.2.symm) id
  refine ⟨r, cfg, hs, ?_⟩
  rw [replyTo, hbare, hsame]
  simp [State.lastResponse, State.responses]

/-- The answers to two sequences of commands, the second under the configuration that the first leaves (20 R41). -/
theorem repliesTo_append {p : Params} {cfg cfg' : CurveConfig} {cs cs' : List Command} {rs rs' : List Response}
    {last : CurveConfig} (h : repliesTo p cfg cs = some (rs, cfg')) (h' : repliesTo p cfg' cs' = some (rs', last)) :
    repliesTo p cfg (cs ++ cs') = some (rs ++ rs', last) := by
  induction cs generalizing cfg rs with
  | nil =>
    cases h
    exact h'
  | cons c cs ih =>
    simp only [repliesTo, Option.bind_eq_some_iff, Option.map_eq_some_iff, Prod.mk.injEq] at h
    obtain ⟨⟨r, mid⟩, hc, ⟨rest, _⟩, hrest, rfl, rfl⟩ := h
    simp [repliesTo, hc, ih hrest]

/-! ## One edge of a run -/

/-- The responses owed are the one delivered at the coming edge and those that remain. -/
theorem State.deliveredNow_append (s : State) :
    s.deliveredNow ++ (if s.outTransfer then s.responses.tail else s.responses) = s.responses := by
  unfold State.deliveredNow
  split_ifs
  · rw [← List.drop_one, List.take_append_drop]
  · rfl

/-- `err_sticky` at the end of an edge, said of the delivery (10 R23). -/
theorem State.endEdge_errSticky_eq {s u : State} {added : List Entry} (hq : u.queue = s.queue ++ added)
    (he : u.errSticky = s.errSticky) :
    (s.endEdge u).errSticky = (s.errSticky || s.deliveredNow.any Response.failed) := by
  rw [State.endEdge_errSticky, State.deliveredNow]
  split_ifs with hout
  · obtain ⟨r, rest, -, -, hqs⟩ := s.outTransfer_cases hout
    rw [u.deliver_errSticky_cons ⟨r, 0⟩ (rest ++ added) (by rw [hq, hqs]; rfl)]
    simp [stickyAfter, State.responses, hqs, he]
  · simp [he]

/-- What the run from `s` to `t` that accepts the commands `cs` and delivers the responses `out` does: nothing but the
answers of the abstract converter enters `Q`, and nothing is lost or overtaken on the way out. -/
def RunAnswers (s : State) (cs : List Command) (out : List Response) (t : State) : Prop :=
  ∃ replies, repliesTo s.params s.cfg cs = some (replies, t.cfg) ∧
    s.responses ++ replies = out ++ t.responses ∧
    t.errSticky = (s.errSticky || out.any Response.failed)

theorem RunAnswers.refl (s : State) : RunAnswers s [] [] s := ⟨[], rfl, by simp, by simp⟩

theorem RunAnswers.trans {s t v : State} {cs cs' : List Command} {out out' : List Response}
    (hp : t.params = s.params) (h : RunAnswers s cs out t) (h' : RunAnswers t cs' out' v) :
    RunAnswers s (cs ++ cs') (out ++ out') v := by
  obtain ⟨replies, hreplies, horder, hsticky⟩ := h
  obtain ⟨replies', hreplies', horder', hsticky'⟩ := h'
  refine ⟨replies ++ replies', repliesTo_append hreplies (hp ▸ hreplies'), ?_, ?_⟩
  · rw [← List.append_assoc, horder, List.append_assoc, horder', List.append_assoc]
  · rw [hsticky', hsticky, List.any_append, Bool.or_assoc]

/-- An edge out of reset is a run of its own, with what its two channels transfer. -/
theorem runAnswers_of_step {s t : State} (hrst : s.edge.rst = false) (hstep : step s = .next t) :
    RunAnswers s s.acceptedNow s.deliveredNow t := by
  rcases step_cases s t hstep with ⟨hr, -, -⟩ | ⟨-, -, hin, rfl⟩ | ⟨-, -, hin, u, hu, rfl⟩
  · simp [hrst] at hr
  · refine ⟨[], by simp [State.acceptedNow, hin, repliesTo], ?_,
      State.endEdge_errSticky_eq (List.append_nil _).symm rfl⟩
    rw [State.endEdge_responses, s.deliveredNow_append, List.append_nil]
  · obtain ⟨r, cfg, ha, hreply⟩ := accept_eq_replyTo s
    cases ha.symm.trans hu
    refine ⟨[r], by simp [State.acceptedNow, hin, repliesTo, hreply], ?_, State.endEdge_errSticky_eq rfl rfl⟩
    rw [State.endEdge_responses_of_answered (e := ⟨r, s.latency⟩) rfl, ← List.append_assoc, s.deliveredNow_append]

/-! ## Runs -/

theorem step_params {s t : State} (h : step s = .next t) : t.params = s.params := by
  rcases step_cases s t h with ⟨-, -, rfl⟩ | ⟨-, -, -, rfl⟩ | ⟨-, -, -, u, hu, rfl⟩
  · rfl
  · simp
  · obtain ⟨cfg, r, ha, -⟩ := accept_answers s
    cases ha.symm.trans hu
    simp

theorem step_edges {s t : State} (h : step s = .next t) : t.edges = s.edges.tail := by
  rcases step_cases s t h with ⟨-, -, rfl⟩ | ⟨-, -, -, rfl⟩ | ⟨-, -, -, u, -, rfl⟩ <;> rfl

/-- The coming edge is out of reset if the listed ones are; an unlisted edge is. -/
theorem State.edge_rst_of_take {s : State} {k : Nat} (h : ∀ e ∈ s.edges.take (k + 1), e.rst = false) :
    s.edge.rst = false := by
  unfold State.edge
  cases hedges : s.edges with
  | nil => rfl
  | cons e rest => exact h e (by simp [hedges])

/-- The edges after the coming one are among the listed ones. -/
theorem State.mem_take_succ_of_tail {s : State} {k : Nat} {e : Edge} (h : e ∈ s.edges.tail.take k) :
    e ∈ s.edges.take (k + 1) := by
  cases hedges : s.edges with
  | nil => simp [hedges] at h
  | cons e' rest => exact List.mem_cons_of_mem e' (by simpa [hedges] using h)

/-- A recorded run of k + 1 edges is an edge and a recorded run of k. -/
theorem State.record_succ {k : Nat} {s : State} {rec : Record} (h : s.record (k + 1) = some rec) :
    ∃ t rest, step s = .next t ∧ t.record k = some rest ∧
      rec = ⟨s.acceptedNow ++ rest.accepted, s.deliveredNow ++ rest.delivered, rest.final⟩ := by
  rw [State.record] at h
  split at h
  next t ht =>
    obtain ⟨rest, hrest, rfl⟩ := Option.map_eq_some_iff.1 h
    exact ⟨t, rest, ht, hrest, rfl⟩
  next => cases h
  next => cases h

/-- By induction on the edges: each does what the abstract converter says, from the state that the edges before it leave. -/
theorem runAnswers_of_record {k : Nat} {s : State} {rec : Record} (hrst : ∀ e ∈ s.edges.take k, e.rst = false)
    (h : s.record k = some rec) : RunAnswers s rec.accepted rec.delivered rec.final := by
  induction k generalizing s rec with
  | zero =>
    cases h
    exact .refl s
  | succ k ih =>
    obtain ⟨t, rest, ht, hrest, rfl⟩ := State.record_succ h
    have htail : ∀ e ∈ t.edges.take k, e.rst = false := fun e he =>
      hrst e (State.mem_take_succ_of_tail (step_edges ht ▸ he))
    exact (runAnswers_of_step (State.edge_rst_of_take hrst) ht).trans (step_params ht) (ih htail hrest)

/-- Settles O18: the run of the record. That the machine has been reset is not needed, since before that it transfers
nothing. -/
theorem responsesLeaveInCommandOrder : Obligations.ResponsesLeaveInCommandOrder :=
  fun _ _ _ _ hrst h => runAnswers_of_record hrst h

end Sys2Proof.Machine
end

section
/-! PROOF. The family 30_encoding: the fields of a command word, the decoder and the encoder against each other and against
the opcode table, illegal words, and ENUMERATE (30 R48 to R57). -/

namespace Sys2Proof

/-! ## A word and its fields (30 R48) -/

theorem toNat_eq_fields (w : CmdWord) :
    w.toNat = fieldOP w + 16 * fieldRSV w + 256 * fieldFA w + 65536 * fieldFB w + 16777216 * fieldFC w := by
  have hw := w.isLt
  simp only [fieldOP, fieldRSV, fieldFA, fieldFB, fieldFC]
  omega

/-- The five fields make up the word. -/
theorem word_ext_fields {w v : CmdWord} :
    w = v ↔ fieldRSV w = fieldRSV v ∧ fieldOP w = fieldOP v ∧ fieldFA w = fieldFA v ∧ fieldFB w = fieldFB v ∧
      fieldFC w = fieldFC v := by
  constructor
  · rintro rfl
    exact ⟨rfl, rfl, rfl, rfl, rfl⟩
  · rintro ⟨hrsv, hop, hfa, hfb, hfc⟩
    exact BitVec.eq_of_toNat_eq (by rw [toNat_eq_fields w, toNat_eq_fields v, hop, hrsv, hfa, hfb, hfc])

theorem fieldOP_lt (w : CmdWord) : fieldOP w < 2 ^ 4 := Nat.mod_lt _ (by decide)
theorem fieldRSV_lt (w : CmdWord) : fieldRSV w < 2 ^ 4 := Nat.mod_lt _ (by decide)
theorem fieldFA_lt (w : CmdWord) : fieldFA w < 2 ^ 8 := Nat.mod_lt _ (by decide)
theorem fieldFB_lt (w : CmdWord) : fieldFB w < 2 ^ 8 := Nat.mod_lt _ (by decide)
theorem fieldFC_lt (w : CmdWord) : fieldFC w < 2 ^ 8 := Nat.mod_lt _ (by decide)

/-! The fields of a word given as a number. -/

@[simp] theorem fieldOP_ofNat (n : Nat) : fieldOP (BitVec.ofNat 32 n) = n % 16 := by
  rw [fieldOP, BitVec.toNat_ofNat]; omega
@[simp] theorem fieldRSV_ofNat (n : Nat) : fieldRSV (BitVec.ofNat 32 n) = n / 16 % 16 := by
  rw [fieldRSV, BitVec.toNat_ofNat]; omega
@[simp] theorem fieldFA_ofNat (n : Nat) : fieldFA (BitVec.ofNat 32 n) = n / 256 % 256 := by
  rw [fieldFA, BitVec.toNat_ofNat]; omega
@[simp] theorem fieldFB_ofNat (n : Nat) : fieldFB (BitVec.ofNat 32 n) = n / 65536 % 256 := by
  rw [fieldFB, BitVec.toNat_ofNat]; omega
@[simp] theorem fieldFC_ofNat (n : Nat) : fieldFC (BitVec.ofNat 32 n) = n / 16777216 % 256 := by
  rw [fieldFC, BitVec.toNat_ofNat]; omega

/-! ## A word under a mask (30 R53) -/

/-- A slice of bits of a conjunction is the conjunction of the slices. -/
theorem and_div_mod_two_pow (x m j k : Nat) :
    (x &&& m) / 2 ^ j % 2 ^ k = (x / 2 ^ j % 2 ^ k) &&& (m / 2 ^ j % 2 ^ k) := by
  rw [Nat.and_div_two_pow, Nat.and_mod_two_pow]

theorem fieldOP_and (w m : CmdWord) : fieldOP (w &&& m) = fieldOP w &&& fieldOP m := by
  simpa [fieldOP] using and_div_mod_two_pow w.toNat m.toNat 0 4
theorem fieldRSV_and (w m : CmdWord) : fieldRSV (w &&& m) = fieldRSV w &&& fieldRSV m :=
  and_div_mod_two_pow w.toNat m.toNat 4 4
theorem fieldFA_and (w m : CmdWord) : fieldFA (w &&& m) = fieldFA w &&& fieldFA m :=
  and_div_mod_two_pow w.toNat m.toNat 8 8
theorem fieldFB_and (w m : CmdWord) : fieldFB (w &&& m) = fieldFB w &&& fieldFB m :=
  and_div_mod_two_pow w.toNat m.toNat 16 8
theorem fieldFC_and (w m : CmdWord) : fieldFC (w &&& m) = fieldFC w &&& fieldFC m :=
  and_div_mod_two_pow w.toNat m.toNat 24 8

/-- A word is a literal under a literal mask when each of its fields is. -/
theorem word_and_literal_eq_iff (w : CmdWord) (m v : Nat) :
    w &&& BitVec.ofNat 32 m = BitVec.ofNat 32 v ↔
      fieldRSV w &&& m / 16 % 16 = v / 16 % 16 ∧ fieldOP w &&& m % 16 = v % 16 ∧
      fieldFA w &&& m / 256 % 256 = v / 256 % 256 ∧ fieldFB w &&& m / 65536 % 256 = v / 65536 % 256 ∧
      fieldFC w &&& m / 16777216 % 256 = v / 16777216 % 256 := by
  rw [word_ext_fields, fieldRSV_and, fieldOP_and, fieldFA_and, fieldFB_and, fieldFC_and]
  simp only [fieldOP_ofNat, fieldRSV_ofNat, fieldFA_ofNat, fieldFB_ofNat, fieldFC_ofNat]

/-- The opcode mask cuts a word to its opcode. -/
theorem toNat_word_and_opMask (w : CmdWord) : (w &&& 0x0000000F#32).toNat = fieldOP w := by
  rw [BitVec.toNat_and, fieldOP]
  exact Nat.and_two_pow_sub_one_eq_mod w.toNat 4

/-! A mask that covers a field keeps it. -/

@[simp] theorem fieldOP_and_full (w : CmdWord) : fieldOP w &&& 15 = fieldOP w :=
  Nat.and_two_pow_sub_one_of_lt_two_pow (fieldOP_lt w)
@[simp] theorem fieldRSV_and_full (w : CmdWord) : fieldRSV w &&& 15 = fieldRSV w :=
  Nat.and_two_pow_sub_one_of_lt_two_pow (fieldRSV_lt w)
@[simp] theorem fieldFA_and_full (w : CmdWord) : fieldFA w &&& 255 = fieldFA w :=
  Nat.and_two_pow_sub_one_of_lt_two_pow (fieldFA_lt w)
@[simp] theorem fieldFB_and_full (w : CmdWord) : fieldFB w &&& 255 = fieldFB w :=
  Nat.and_two_pow_sub_one_of_lt_two_pow (fieldFB_lt w)
@[simp] theorem fieldFC_and_full (w : CmdWord) : fieldFC w &&& 255 = fieldFC w :=
  Nat.and_two_pow_sub_one_of_lt_two_pow (fieldFC_lt w)

/-! ## The decoder (30 R55) -/

theorem withZero_eq_ok (z : List Nat) (i j : Instr) : withZero z i = .ok j ↔ i = j ∧ ∀ x ∈ z, x = 0 := by
  unfold withZero
  split_ifs with h
  · simpa using fun _ => h
  · simpa using fun _ => h

/-- The decoder answers a command exactly when the word has the fields of the command, and 0 in RSV. -/
theorem decodeWord_eq_ok (w : CmdWord) (i : Instr) :
    decodeWord w = .ok i ↔ fieldRSV w = 0 ∧ fieldOP w = i.opcode ∧ fieldFA w = i.fields.1 ∧
      fieldFB w = i.fields.2.1 ∧ fieldFC w = i.fields.2.2 := by
  constructor
  · intro h
    unfold decodeWord at h
    split_ifs at h with hrsv
    split at h
    -- A reserved opcode decodes to nothing; BITRANGE alone has no must-be-zero field.
    case h_10 => cases h
    case h_4 hop =>
      cases h
      exact ⟨not_not.1 hrsv, hop, rfl, rfl, rfl⟩
    all_goals
      next hop =>
      obtain ⟨rfl, hzero⟩ := (withZero_eq_ok _ _ _).1 h
      simp_all [Instr.opcode, Instr.fields]
  · rintro ⟨hrsv, hop, hfa, hfb, hfc⟩
    cases i <;> simp_all [decodeWord, withZero, Instr.opcode, Instr.fields]

/-- A command whose fields fit 8 bits is well-formed: the operands are among the fields. -/
theorem Instr.wf_of_fields_lt (i : Instr) (ha : i.fields.1 < 256) (hb : i.fields.2.1 < 256) (hc : i.fields.2.2 < 256) :
    i.wf = true := by
  cases i <;> simp_all [Instr.wf, Instr.fields]

theorem decodeWord_wf {w : CmdWord} {i : Instr} (h : decodeWord w = .ok i) : i.wf = true := by
  obtain ⟨-, -, hfa, hfb, hfc⟩ := (decodeWord_eq_ok w i).1 h
  exact i.wf_of_fields_lt (hfa ▸ fieldFA_lt w) (hfb ▸ fieldFB_lt w) (hfc ▸ fieldFC_lt w)

/-- Settles O1: the encoder's word has the fields of the command, which is what the decoder reads. -/
theorem decodeOfEncodeIsIdentity : Obligations.DecodeOfEncodeIsIdentity := decodeWord_encodeWord

/-- Settles O2: the word and the encoder's word have the same five fields, so they are the same word. -/
theorem encodeOfDecodeIsIdentity : Obligations.EncodeOfDecodeIsIdentity := by
  intro w i h
  have hwf := decodeWord_wf h
  refine ⟨hwf, ?_⟩
  obtain ⟨hrsv, hop, hfa, hfb, hfc⟩ := (decodeWord_eq_ok w i).1 h
  obtain ⟨hop', hrsv', hfa', hfb', hfc'⟩ := Laws.WordFields.of_fields i hwf
  exact word_ext_fields.2
    ⟨hrsv'.trans hrsv.symm, hop'.trans hop.symm, hfa'.trans hfa.symm, hfb'.trans hfb.symm, hfc'.trans hfc.symm⟩

/-- Settles O4: each word is a literal, which the decoder reads by computation. -/
theorem writtenOutWordsDecode : Obligations.WrittenOutWordsDecode := by
  unfold Obligations.WrittenOutWordsDecode
  decide

/-! ## Legal words (30 R51 to R54) -/

/-- RSV is 0, and the opcode is one of the nine with its must-be-zero fields 0 (30 R51, R52, R53). -/
def LegalWord (w : CmdWord) : Prop :=
  fieldRSV w = 0 ∧
    (fieldOP w = 1 ∧ fieldFC w = 0 ∨
      fieldOP w = 2 ∧ fieldFA w = 0 ∧ fieldFB w = 0 ∧ fieldFC w = 0 ∨
      fieldOP w = 3 ∧ fieldFB w = 0 ∧ fieldFC w = 0 ∨
      fieldOP w = 4 ∨
      fieldOP w = 5 ∧ fieldFC w = 0 ∨
      fieldOP w = 6 ∧ fieldFC w = 0 ∨
      fieldOP w = 7 ∧ fieldFA w = 0 ∧ fieldFB w = 0 ∧ fieldFC w = 0 ∨
      fieldOP w = 8 ∧ fieldFA w = 0 ∧ fieldFB w = 0 ∧ fieldFC w = 0 ∨
      fieldOP w = 9 ∧ fieldFB w = 0 ∧ fieldFC w = 0)

/-- The decoder answers a command for the legal words and for no other (30 R55). -/
theorem decodes_iff_legalWord (w : CmdWord) : (∃ i, decodeWord w = .ok i) ↔ LegalWord w := by
  simp only [decodeWord_eq_ok]
  constructor
  · rintro ⟨i, hrsv, hop, hfa, hfb, hfc⟩
    cases i <;> simp_all [LegalWord, Instr.opcode, Instr.fields]
  · rintro ⟨hrsv, ⟨hop, hfc⟩ | ⟨hop, hfa, hfb, hfc⟩ | ⟨hop, hfb, hfc⟩ | hop | ⟨hop, hfc⟩ | ⟨hop, hfc⟩ |
      ⟨hop, hfa, hfb, hfc⟩ | ⟨hop, hfa, hfb, hfc⟩ | ⟨hop, hfb, hfc⟩⟩
    · exact ⟨.config (fieldFA w) (fieldFB w), hrsv, hop, rfl, rfl, hfc⟩
    · exact ⟨.encode, hrsv, hop, hfa, hfb, hfc⟩
    · exact ⟨.decode (fieldFA w), hrsv, hop, rfl, hfb, hfc⟩
    · exact ⟨.bitrange (fieldFA w) (fieldFB w) (fieldFC w), hrsv, hop, rfl, rfl, rfl⟩
    · exact ⟨.rotl (fieldFA w) (fieldFB w), hrsv, hop, rfl, rfl, hfc⟩
    · exact ⟨.rotr (fieldFA w) (fieldFB w), hrsv, hop, rfl, rfl, hfc⟩
    · exact ⟨.grayenc, hrsv, hop, hfa, hfb, hfc⟩
    · exact ⟨.graydec, hrsv, hop, hfa, hfb, hfc⟩
    · exact ⟨.tsb (fieldFA w), hrsv, hop, rfl, hfb, hfc⟩

/-! The bits that 30 R51, R52 and R53 name, in a legal word. -/

section
variable {w : CmdWord} (h : LegalWord w)
include h

theorem LegalWord.rsv_bits : w &&& 0x000000F0#32 = 0#32 := by
  obtain ⟨hrsv, -⟩ := h
  simpa [word_and_literal_eq_iff] using hrsv

theorem LegalWord.opcode_bits : w &&& 0x0000000F#32 ≠ 0x0#32 ∧ ¬0xA#32 ≤ w &&& 0x0000000F#32 := by
  obtain ⟨-, hop⟩ := h
  rw [Ne, ← BitVec.toNat_inj, BitVec.le_def, toNat_word_and_opMask, BitVec.toNat_ofNat, BitVec.toNat_ofNat]
  omega

/-- The opcodes and masks are those of 30 R53. -/
theorem LegalWord.mustBeZero : ∀ q ∈ [(0x1#32, 0xFF000000#32), (0x2#32, 0xFFFFFF00#32), (0x3#32, 0xFFFF0000#32),
    (0x5#32, 0xFF000000#32), (0x6#32, 0xFF000000#32), (0x7#32, 0xFFFFFF00#32), (0x8#32, 0xFFFFFF00#32),
    (0x9#32, 0xFFFF0000#32)], w &&& 0x0000000F#32 = q.1 → w &&& q.2 = 0#32 := by
  obtain ⟨-, hop⟩ := h
  simp only [List.mem_cons, List.not_mem_nil, or_false, forall_eq_or_imp, forall_eq, word_and_literal_eq_iff,
    Nat.reduceMod, Nat.reduceDiv, Nat.and_zero, true_and, and_true,
    fieldOP_and_full, fieldFA_and_full, fieldFB_and_full, fieldFC_and_full]
  omega

end

/-! ## The opcode table (30 R54) -/

theorem OpcodeRow.accepts_iff (r : OpcodeRow) (w : CmdWord) : r.accepts w = true ↔ w &&& r.mask = r.pattern := by
  simp [OpcodeRow.accepts]

/-- The masks and patterns of the rows, read field by field, are those of the legal words. -/
theorem exists_row_accepts_iff_legalWord (w : CmdWord) : (∃ r ∈ opcodeTable, r.accepts w = true) ↔ LegalWord w := by
  simp only [opcodeTable, List.mem_cons, List.not_mem_nil, or_false, OpcodeRow.accepts_iff, exists_eq_or_imp,
    exists_eq_left, word_and_literal_eq_iff, Nat.reduceMod, Nat.reduceDiv, Nat.and_zero, true_and, and_true,
    fieldOP_and_full, fieldRSV_and_full, fieldFA_and_full, fieldFB_and_full, fieldFC_and_full, LegalWord, and_or_left]

/-- Every mask of the table covers the opcode. -/
theorem fieldOP_of_accepts {r : OpcodeRow} (hr : r ∈ opcodeTable) {w : CmdWord} (h : r.accepts w = true) :
    fieldOP w = fieldOP r.pattern := by
  have hmask : ∀ r ∈ opcodeTable, fieldOP r.mask = 15 := by decide
  rw [← (r.accepts_iff w).1 h, fieldOP_and, hmask r hr, fieldOP_and_full]

theorem row_eq_of_fieldOP_eq : ∀ r₁ ∈ opcodeTable, ∀ r₂ ∈ opcodeTable,
    fieldOP r₁.pattern = fieldOP r₂.pattern → r₁ = r₂ := by decide

/-- Settles O3: the decoder and the table accept the legal words; two rows that match one word have its opcode. -/
theorem decoderAcceptsExactlyTheOpcodeTable : Obligations.DecoderAcceptsExactlyTheOpcodeTable := by
  intro w
  refine ⟨(decodes_iff_legalWord w).trans (exists_row_accepts_iff_legalWord w).symm, ?_⟩
  intro r₁ hr₁ r₂ hr₂ h₁ h₂
  exact row_eq_of_fieldOP_eq r₁ hr₁ r₂ hr₂ ((fieldOP_of_accepts hr₁ h₁).symm.trans (fieldOP_of_accepts hr₂ h₂))

end Sys2Proof

namespace Sys2Proof.Machine

/-! ## Illegal words (30 R51 to R53, 60 R97) -/

theorem accept_of_not_legalWord {s : State} (h : ¬LegalWord s.inCommand.word) : accept s = acceptIllegal s := by
  unfold accept
  split
  next i hi => exact absurd ((decodes_iff_legalWord _).1 ⟨i, hi⟩) h
  next => rfl

/-- Settles O5: each of the conditions contradicts legality, and an illegal word is answered with IllegalCommand. -/
theorem illegalWordsAreAnswered : Obligations.IllegalWordsAreAnswered := by
  rintro s w rfl h
  refine (accept_of_not_legalWord ?_).trans (acceptIllegal_eq s)
  intro hlegal
  obtain ⟨hne, hnle⟩ := hlegal.opcode_bits
  obtain hrsv | hzero | hres | ⟨q, hq, hop, hfield⟩ := h
  · exact hrsv hlegal.rsv_bits
  · exact hne hzero
  · exact hnle hres
  · exact hfield (hlegal.mustBeZero q hq hop)

/-! ## ENUMERATE (30 R57) -/

/-- The lines of the sequence: CONFIG, and ENCODE of every index below 2^(N·D). -/
theorem mem_enumerateLines (d n : Nat) (a : AsmLine) :
    a ∈ enumerateLines d n ↔ a = .config d n ∨ ∃ k < 2 ^ (n * d), a = .encode k := by
  simp [enumerateLines, eq_comm]

theorem assemble_config (p : Params) {d n : Nat} (hd : d < 256) (hn : n < 256) :
    ∃ c, assemble p (.config d n) = some c :=
  ⟨_, (assemble_eq_some p _ _).2
    ⟨⟨by simp [AsmLine.instr, Instr.wf, hd, hn], rfl, Nat.two_pow_pos _, Nat.zero_le _, List.forall_mem_nil _⟩, rfl⟩⟩

theorem assemble_encode (p : Params) {idx : Nat} (h : idx < 2 ^ p.iw) : ∃ c, assemble p (.encode idx) = some c :=
  ⟨_, (assemble_eq_some p _ _).2 ⟨⟨rfl, rfl, h, Nat.zero_le _, List.forall_mem_nil _⟩, rfl⟩⟩

/-- Settles O43: the shape is that of the list; D, N fit their fields since N ≤ N·D ≤ IW, and an index below 2^(N·D) fits
IW bits. -/
theorem enumerationCoversTheDomain : Obligations.EnumerationCoversTheDomain := by
  intro p d n hp hd hdmax hn
  refine ⟨rfl, by simp [enumerateLines], fun k hk => by simp [enumerateLines, hk], fun a ha => ?_⟩
  obtain rfl | ⟨k, hk, rfl⟩ := (mem_enumerateLines d n a).1 ha
  · obtain ⟨-, hmax, -⟩ := hp
    have hn_le : n ≤ n * d := Nat.le_mul_of_pos_right n hd
    have hiw := p.iw_le
    exact assemble_config p (by omega) (by omega)
  · exact assemble_encode p (hk.trans_le (Nat.pow_le_pow_right (by decide) hn))

end Sys2Proof.Machine
end

section
/-! PROOF. The family 40_bitfield: the words and the answers of the primitive commands (40 R66 to R72), and the direction at
all ones (41 R75). -/

namespace Sys2Proof

/-! ## The word of a command as a sum of its fields (30 R48) -/

/-- The decoder reads a well-formed command from the weighted sum of its opcode and its fields. -/
theorem decodeWord_fieldSum (i : Instr) (hw : i.wf = true) :
    decodeWord (BitVec.ofNat 32
      (i.opcode + 2 ^ 8 * i.fields.1 + 2 ^ 16 * i.fields.2.1 + 2 ^ 24 * i.fields.2.2)) = .ok i := by
  obtain ⟨ha, hb, hc⟩ := i.fields_lt hw
  have ho := i.opcode_lt
  rw [decodeWord_eq_ok, fieldOP_ofNat, fieldRSV_ofNat, fieldFA_ofNat, fieldFB_ofNat, fieldFC_ofNat]
  omega

end Sys2Proof

namespace Sys2Proof.Machine

/-! ## The answers of the primitive commands (40 R66) -/

/-- The response is the one that an acceptance appends, so it is determined by the next state. -/
theorem State.answered_injective (s : State) : Function.Injective s.answered := by
  intro r r' h
  have hq : s.queue ++ [⟨r, s.latency⟩] = s.queue ++ [⟨r', s.latency⟩] := congrArg State.queue h
  simpa using hq

/-- Two acceptances of one state with the same next state answered the same scalar. -/
theorem State.answered_data_eq {s : State} {st : Status} {x y : Nat} {coord : List Nat}
    (h : (.next (s.answered ⟨st, x, coord⟩) : StepOutcome) = .next (s.answered ⟨st, y, coord⟩)) : x = y :=
  congrArg Response.data (s.answered_injective (Host.Outcome.next.inj h))

section
variable {s : State} {width amount : Nat}

theorem exec_bitrange_illegal {start stop : Nat} (h : width > s.params.iw ∨ stop > width ∨ start > stop) :
    exec (.bitrange width start stop) s = .next (s.answered ⟨.illegalOperand, 0, zeroCoord s.params⟩) :=
  if_pos h

theorem exec_bitrange_ok {start stop : Nat} (hw : width ≤ s.params.iw) (hstop : stop ≤ width) (hstart : start ≤ stop) :
    exec (.bitrange width start stop) s =
      .next (s.answered ⟨.ok, bitRange s.inData width start stop, zeroCoord s.params⟩) :=
  if_neg (by omega)

theorem exec_rotl_illegal (h : width = 0 ∨ width > s.params.iw) :
    exec (.rotl width amount) s = .next (s.answered ⟨.illegalOperand, 0, zeroCoord s.params⟩) :=
  if_pos h

theorem exec_rotl_ok (h1 : 1 ≤ width) (hw : width ≤ s.params.iw) :
    exec (.rotl width amount) s = .next (s.answered ⟨.ok, rotateLeft s.inData amount width, zeroCoord s.params⟩) :=
  if_neg (by omega)

theorem exec_rotr_illegal (h : width = 0 ∨ width > s.params.iw) :
    exec (.rotr width amount) s = .next (s.answered ⟨.illegalOperand, 0, zeroCoord s.params⟩) :=
  if_pos h

theorem exec_rotr_ok (h1 : 1 ≤ width) (hw : width ≤ s.params.iw) :
    exec (.rotr width amount) s = .next (s.answered ⟨.ok, rotateRight s.inData amount width, zeroCoord s.params⟩) :=
  if_neg (by omega)

theorem exec_grayenc :
    exec .grayenc s = .next (s.answered ⟨.ok, grayEncode s.inData, zeroCoord s.params⟩) := rfl

theorem exec_graydec :
    exec .graydec s = .next (s.answered ⟨.ok, grayDecode s.inData, zeroCoord s.params⟩) := rfl

theorem exec_tsb_illegal (h : width > s.params.iw) :
    exec (.tsb width) s = .next (s.answered ⟨.illegalOperand, 0, zeroCoord s.params⟩) :=
  if_pos h

theorem exec_tsb_ok (hw : width ≤ s.params.iw) :
    exec (.tsb width) s = .next (s.answered ⟨.ok, trailingSetBits s.inData width, zeroCoord s.params⟩) :=
  if_neg (by omega)

end

/-! ## BITRANGE (40 R67) -/

/-- Settles O33: the two clauses are the two branches of the command's check. -/
theorem bitrangeExtracts : Obligations.BitrangeExtracts := by
  intro width start stop s hwidth hstart hstop
  refine ⟨decodeWord_fieldSum (.bitrange width start stop) (by simp [Instr.wf, hwidth, hstart, hstop]),
    exec_bitrange_illegal, fun hw hle hstartle => ?_⟩
  rw [exec_bitrange_ok hw hle hstartle, bitRange_eq]

/-! ## ROTL and ROTR (40 R60 to R62, R68, R69) -/

/-- Settles O34: the result is `rotateLeft`, whose bits are known. -/
theorem rotlRotatesLeft : Obligations.RotlRotatesLeft := by
  intro width amount s hwidth hamount
  exact ⟨decodeWord_fieldSum (.rotl width amount) (by simp [Instr.wf, hwidth, hamount]), exec_rotl_illegal,
    fun h1 hw => ⟨_, exec_rotl_ok h1 hw, rotateLeft_lt .., rotateLeft_testBit _ _ _⟩⟩

/-- Settles O35: the result is `rotateRight`, whose bits are known. -/
theorem rotrRotatesRight : Obligations.RotrRotatesRight := by
  intro width amount s hwidth hamount
  exact ⟨decodeWord_fieldSum (.rotr width amount) (by simp [Instr.wf, hwidth, hamount]), exec_rotr_illegal,
    fun h1 hw => ⟨_, exec_rotr_ok h1 hw, rotateRight_lt .., rotateRight_testBit _ _ _⟩⟩

/-- Rotating right by the same amount gives back the low bits that were rotated left (40 R62). -/
theorem rotateRight_rotateLeft (x amount width : Nat) :
    rotateRight (rotateLeft x amount width) amount width = x % 2 ^ width := by
  refine Nat.eq_of_testBit_eq fun k => ?_
  rw [Nat.testBit_mod_two_pow]
  by_cases hk : k < width
  · rw [rotateRight_testBit _ _ _ _ hk, rotateLeft_testBit _ _ _ _ hk, decide_eq_true hk, Bool.true_and]
  · have hpow : 2 ^ width ≤ 2 ^ k := Nat.pow_le_pow_right (by decide) (Nat.not_lt.1 hk)
    rw [Nat.testBit_lt_two_pow ((rotateRight_lt ..).trans_le hpow), decide_eq_false hk, Bool.false_and]

/-- Settles O39: the scalar of ROTL's response is `rotateLeft`, which `rotateRight` undoes. -/
theorem rotrUndoesRotl : Obligations.RotrUndoesRotl := by
  intro width amount r s u hp h1 hw hrotl hr
  have hleft : r = rotateLeft s.inData amount width :=
    State.answered_data_eq (hrotl.symm.trans (exec_rotl_ok h1 hw))
  rw [exec_rotr_ok h1 (hp ▸ hw), hr, hleft, rotateRight_rotateLeft, hp]

/-! ## GRAYENC and GRAYDEC (40 R63, R64, R70, R71) -/

/-- Settles O36: the result is the Gray code, written with its half in place of the shift. -/
theorem grayencHalvesAndXors : Obligations.GrayencHalvesAndXors := by
  intro s
  rw [exec_grayenc, ← grayEncode_eq]
  exact ⟨by decide, grayEncode_lt s.inData_lt, rfl⟩

theorem grayEncode_testBit (x m : Nat) : (grayEncode x).testBit m = (x.testBit m ^^ x.testBit (m + 1)) := by
  rw [grayEncode, Nat.testBit_xor, Nat.testBit_shiftRight, Nat.add_comm]

/-- GRAYDEC's function is a left inverse of GRAYENC's too (40 R64). -/
theorem grayDecode_grayEncode (x : Nat) : grayDecode (grayEncode x) = x :=
  grayEncode_injective (grayEncode_grayDecode _)

/-- Settles O37: the Gray code of the result is the operand, so the bits of the operand are those of a Gray code. -/
theorem graydecInvertsTheGrayCode : Obligations.GraydecInvertsTheGrayCode := by
  intro s
  refine ⟨by decide, _, exec_graydec, grayDecode_lt s.inData_lt, ?_, fun m => ?_⟩
  · rw [← grayEncode_eq, grayEncode_grayDecode]
  · have hbit := grayEncode_testBit (grayDecode s.inData) m
    rw [grayEncode_grayDecode] at hbit
    rw [hbit, Bool.xor_assoc, Bool.xor_self, Bool.xor_false]

/-- Settles O40: the scalar of GRAYENC's response is the Gray code, which `grayDecode` undoes. -/
theorem graydecUndoesGrayenc : Obligations.GraydecUndoesGrayenc := by
  intro r s u hp henc hr
  have hgray : r = grayEncode s.inData := State.answered_data_eq (henc.symm.trans exec_grayenc)
  rw [exec_graydec, hr, hgray, grayDecode_grayEncode, hp]

/-! ## TSB (40 R65, R72) -/

/-- The bits below the count are all 1. -/
theorem mod_two_pow_trailingSetBits (x w : Nat) :
    x % 2 ^ trailingSetBits x w = 2 ^ trailingSetBits x w - 1 := by
  induction w generalizing x with
  | zero => simp [trailingSetBits, Nat.mod_one]
  | succ w ih =>
    rw [trailingSetBits]
    split
    · next hodd =>
      have hpos := Nat.two_pow_pos (trailingSetBits (x / 2) w)
      rw [pow_succ', Nat.mod_mul, ih, hodd]
      omega
    · simp [Nat.mod_one]

/-- The bit at the count is 0, unless the cap ended the count. -/
theorem testBit_trailingSetBits {x w : Nat} (h : trailingSetBits x w < w) :
    x.testBit (trailingSetBits x w) = false := by
  induction w generalizing x with
  | zero => exact absurd h (Nat.not_lt_zero _)
  | succ w ih =>
    rw [trailingSetBits] at h ⊢
    split at h
    · next hodd =>
      rw [if_pos hodd, Nat.testBit_succ]
      exact ih (Nat.lt_of_succ_lt_succ h)
    · next heven =>
      rw [if_neg heven, Nat.testBit_zero, decide_eq_false heven]

/-- Settles O38: the count is `trailingSetBits`, at most the width, with 1 bits below it and a 0 bit at it. -/
theorem tsbCountsTrailingOnes : Obligations.TsbCountsTrailingOnes := by
  intro width s hwidth
  exact ⟨decodeWord_fieldSum (.tsb width) (by simp [Instr.wf, hwidth]), exec_tsb_illegal,
    fun hw => ⟨_, exec_tsb_ok hw, trailingSetBits_le .., mod_two_pow_trailingSetBits .., testBit_trailingSetBits⟩⟩

/-! ## The direction at all ones (41 R75, 90 C3) -/

/-- At all ones no bit below the width is 0, so only the cap ends the count. -/
theorem trailingSetBits_allOnes (w : Nat) : trailingSetBits (2 ^ w - 1) w = w := by
  refine (trailingSetBits_le _ _).eq_of_not_lt fun h => ?_
  have hbit := testBit_trailingSetBits h
  rw [Nat.testBit_two_pow_sub_one, decide_eq_true h] at hbit
  exact Bool.noConfusion hbit

theorem direction_of_odd {w : Nat} (h : w % 2 = 1) (dim : Nat) : direction w dim = trailingSetBits w dim % dim := by
  rw [direction, if_neg (by omega), if_neg (by omega)]

/-- Settles O31: 2^D − 1 is odd, and its count D is 0 modulo D. -/
theorem allOnesHasDirectionZero : Obligations.AllOnesHasDirectionZero := by
  intro dim hdim
  have hodd : (2 ^ dim - 1) % 2 = 1 := by
    rw [Nat.two_pow_sub_one_mod_two, Nat.mod_eq_of_lt (Nat.one_lt_two_pow (Nat.one_le_iff_ne_zero.1 hdim))]
  exact ⟨trailingSetBits_allOnes dim, by rw [direction_of_odd hodd, trailingSetBits_allOnes, Nat.mod_self]⟩

end Sys2Proof.Machine
end

section
/-! PROOF. The family 41_recurrence: the ranges of the recurrence, the level transforms as inverses, and the bits that
ENCODE's levels write (41 R73 to R78, 42 R83 to R85). -/

namespace Sys2Proof.Machine

/-! ## The ranges of the recurrence (41 R73 to R77) -/

theorem direction_lt (w : Nat) {dim : Nat} (hdim : 1 ≤ dim) : direction w dim < dim := by
  unfold direction
  split_ifs
  · exact hdim
  · exact Nat.mod_lt _ hdim
  · exact Nat.mod_lt _ hdim

theorem entry_of_ne_zero {w : Nat} (h : w ≠ 0) : entry w = (2 * ((w - 1) / 2)) ^^^ ((w - 1) / 2) := by
  rw [entry, if_neg h, grayEncode_eq, Nat.mul_div_cancel_left _ (by decide)]

/-- Settles O30: the ranges are those of the functions, and the three values of entry are computed. -/
theorem updateKeepsTheOrientationLegal : Obligations.UpdateKeepsTheOrientationLegal := by
  intro o w dim hdim he _ hw
  exact ⟨o.update_e_lt w he, o.update_d_lt w hdim, direction_lt w hdim, entry_lt hw, by decide, by decide, by decide,
    entry_of_ne_zero⟩

/-! ## The level transforms (41 R78) -/

/-- Every position below the width is reached by moving one of them by `a` around the width. -/
theorem exists_add_mod_eq (a : Nat) {m width : Nat} (hm : m < width) : ∃ k < width, (k + a) % width = m := by
  have ha : a % width < width := Nat.mod_lt _ (by omega)
  refine ⟨(m + (width - a % width)) % width, Nat.mod_lt _ (by omega), ?_⟩
  have hsum : m + (width - a % width) + a % width = m + width := by omega
  rw [Nat.mod_add_mod, ← Nat.add_mod_mod _ a, hsum, Nat.add_mod_right, Nat.mod_eq_of_lt hm]

/-- Numbers of n bits are equal when their bits below n are. -/
theorem eq_of_testBit_eq_below {x y n : Nat} (hx : x < 2 ^ n) (hy : y < 2 ^ n)
    (h : ∀ m < n, x.testBit m = y.testBit m) : x = y := by
  refine Nat.eq_of_testBit_eq fun m => ?_
  rcases Nat.lt_or_ge m n with hm | hm
  · exact h m hm
  · have hpow : 2 ^ n ≤ 2 ^ m := Nat.pow_le_pow_right (by decide) hm
    rw [Nat.testBit_lt_two_pow (hx.trans_le hpow), Nat.testBit_lt_two_pow (hy.trans_le hpow)]

/-- Rotating left by the same amount gives back the low bits that were rotated right (40 R62). -/
theorem rotateLeft_rotateRight (x amount width : Nat) :
    rotateLeft (rotateRight x amount width) amount width = x % 2 ^ width := by
  refine eq_of_testBit_eq_below (rotateLeft_lt ..) (Nat.mod_lt _ (Nat.two_pow_pos _)) fun m hm => ?_
  obtain ⟨k, hk, rfl⟩ := exists_add_mod_eq amount hm
  rw [rotateLeft_testBit _ _ _ _ hk, rotateRight_testBit _ _ _ _ hk, Nat.testBit_mod_two_pow, decide_eq_true hm,
    Bool.true_and]

/-- Settles O32: the two rotations undo each other, and e is xored in twice. -/
theorem levelTransformsAreInverse : Obligations.LevelTransformsAreInverse := by
  intro o b dim _ he _ hb
  constructor
  · rw [Orientation.toCurve, Orientation.fromCurve, Nat.xor_assoc, Nat.xor_self, Nat.xor_zero, rotateRight_rotateLeft,
      Nat.mod_eq_of_lt hb]
  · rw [Orientation.fromCurve, Orientation.toCurve, rotateLeft_rotateRight,
      Nat.mod_eq_of_lt (Nat.xor_lt_two_pow hb he), Nat.xor_assoc, Nat.xor_self, Nat.xor_zero]

/-! ## The bits of one level -/

/-- Tinv moves bit k of its operand to bit (k + d + 1) mod D and xors e in (41 R78). -/
theorem Orientation.fromCurve_testBit (o : Orientation) (b : Nat) {k dim : Nat} (hk : k < dim) :
    (o.fromCurve b dim).testBit ((k + o.d + 1) % dim) = (b.testBit k ^^ o.e.testBit ((k + o.d + 1) % dim)) := by
  rw [Orientation.fromCurve, Nat.testBit_xor, Nat.add_assoc, rotateLeft_testBit _ _ _ _ hk]

/-- The update xors bit k of entry(w) into bit (k + d + 1) mod D of e (41 R77). -/
theorem Orientation.update_e_testBit (o : Orientation) (w : Nat) {k dim : Nat} (hk : k < dim) :
    (o.update w dim).e.testBit ((k + o.d + 1) % dim) =
      (o.e.testBit ((k + o.d + 1) % dim) ^^ (entry w).testBit k) := by
  rw [Orientation.update, Nat.testBit_xor, Nat.add_assoc, rotateLeft_testBit _ _ _ _ hk]

/-- A group of the index as a quotient and a remainder (42 R83). -/
theorem indexGroup_eq (idx dim n i : Nat) : indexGroup idx dim n i = idx / 2 ^ ((n - 1 - i) * dim) % 2 ^ dim := by
  rw [indexGroup, bitRange_eq, ← Nat.sub_mul, ← Nat.sub_mul, Nat.add_sub_cancel_left, Nat.one_mul, Nat.sub_sub,
    Nat.add_comm 1 i]

/-! ## The bits of all levels of ENCODE (42 R84, R85) -/

/-- A level writes bit n − 1 − i of the components below D, and no other. -/
theorem encLevel_testBit (idx dim n i : Nat) (c : EncCarry) {j : Nat} (hj : j < c.coord.length) (m : Nat) :
    ((encLevel idx dim n i c).coord.getD j 0).testBit m =
      if j < dim ∧ m = n - i - 1 then (c.orient.fromCurve (grayEncode (indexGroup idx dim n i)) dim).testBit j
      else (c.coord.getD j 0).testBit m :=
  scatterBits_testBit _ _ _ _ _ _ hj

theorem encPrefix_succ_orient (lanes dim n idx i : Nat) :
    (encPrefix lanes dim n idx (i + 1)).orient =
      (encPrefix lanes dim n idx i).orient.update (indexGroup idx dim n i) dim := by
  rw [encPrefix_succ, encLevel]

section
variable {lanes dim n i : Nat} (idx : Nat) (hdim : dim ≤ lanes) (hi : i < n)
include hdim hi

/-- Level i is the last to write bit n − 1 − i of a component. -/
theorem encPrefix_testBit_written {j k : Nat} (hj : j < dim) (hik : i < k) (hk : k ≤ n) :
    ((encPrefix lanes dim n idx k).coord.getD j 0).testBit (n - 1 - i) =
      ((encPrefix lanes dim n idx i).orient.fromCurve (grayEncode (indexGroup idx dim n i)) dim).testBit j := by
  induction k, hik using Nat.le_induction with
  | base =>
    rw [encPrefix_succ, encLevel_testBit _ _ _ _ _ (by rw [encPrefix_length]; omega), if_pos (by omega)]
  | succ k hik ih =>
    rw [encPrefix_succ, encLevel_testBit _ _ _ _ _ (by rw [encPrefix_length]; omega), if_neg (by omega),
      ih (by omega)]

/-- Bit k of the Gray code of group i, xored with the bit of e it meets, goes to component (k + d + 1) mod D. -/
theorem encLevels_testBit {k : Nat} (hk : k < dim) {o : Orientation}
    (ho : (encPrefix lanes dim n idx i).orient = o) :
    ((encLevels lanes dim n idx).coord.getD ((k + o.d + 1) % dim) 0).testBit (n - 1 - i) =
      (((indexGroup idx dim n i).testBit k ^^ (indexGroup idx dim n i).testBit (k + 1)) ^^
        o.e.testBit ((k + o.d + 1) % dim)) := by
  rw [encLevels_eq, encPrefix_testBit_written idx hdim hi (Nat.mod_lt _ (by omega)) hi le_rfl, ho,
    Orientation.fromCurve_testBit _ _ hk, grayEncode_testBit]

end

/-! ## ENCODE of an index in range -/

theorem exec_encode_ok {s : State} (hs : s.Configured) (hidx : s.inData < 2 ^ (s.curveN * s.curveD)) :
    exec .encode s =
      .next (s.answered ⟨.ok, 0, (encLevels s.params.dmax s.curveD s.curveN s.inData).coord⟩) := by
  obtain ⟨hvalid, -⟩ := hs
  rw [exec, execEncode, if_neg (by simp [hvalid]), if_neg (by omega), respond_eq]

/-- Settles O44: the orientations are those between the levels of ENCODE. -/
theorem encodeWritesEveryLevel : Obligations.EncodeWritesEveryLevel := by
  intro s hs hidx
  have hok := exec_encode_ok hs hidx
  obtain ⟨-, hdim, hdmax, -⟩ := hs
  refine ⟨_, fun i => (encPrefix s.params.dmax s.curveD s.curveN s.inData i).orient.e,
    fun i => (encPrefix s.params.dmax s.curveD s.curveN s.inData i).orient.d,
    indexGroup s.inData s.curveD s.curveN, hok, rfl, rfl, fun i hi => ?_⟩
  refine ⟨indexGroup_eq .., ?_, (encPrefix_orient _ _ _ _ _ hdim).1,
    fun k hk => ⟨?_, encLevels_testBit _ hdmax hi hk rfl⟩⟩
  · beta_reduce
    rw [encPrefix_succ_orient, Orientation.update]
  · beta_reduce
    rw [encPrefix_succ_orient, Orientation.update_e_testBit _ _ hk]

/-! ## The origin, the line and the top group (42 R85) -/

theorem rotateLeft_zero (amount width : Nat) : rotateLeft 0 amount width = 0 := by simp [rotateLeft]

/-- As long as entry of every group is 0, e stays 0 (41 R77). -/
theorem encPrefix_orient_e_eq_zero {dim n idx : Nat} (h : ∀ i, entry (indexGroup idx dim n i) = 0) (lanes k : Nat) :
    (encPrefix lanes dim n idx k).orient.e = 0 := by
  induction k with
  | zero => rfl
  | succ k ih => rw [encPrefix_succ_orient, Orientation.update, ih, h, rotateLeft_zero, Nat.xor_zero]

section
variable {lanes dim n idx : Nat}

/-- A component of ENCODE has no bits but those of its n levels. -/
theorem encLevels_getD_eq {j x : Nat} (hx : x < 2 ^ n)
    (hbits : ∀ i < n, ((encLevels lanes dim n idx).coord.getD j 0).testBit (n - 1 - i) = x.testBit (n - 1 - i)) :
    (encLevels lanes dim n idx).coord.getD j 0 = x := by
  refine eq_of_testBit_eq_below (encLevels_lt ..) hx fun m hm => ?_
  have hbit := hbits (n - 1 - m) (by omega)
  rwa [Nat.sub_sub_self (by omega)] at hbit

/-- A coordinate of ENCODE is determined by its components below D, since its other lanes are 0. -/
theorem encLevels_coord_eq {cs : List Nat} (hlen : cs.length = lanes)
    (hcomponent : ∀ j < dim, (encLevels lanes dim n idx).coord.getD j 0 = cs.getD j 0)
    (hbeyond : ∀ j ≥ dim, cs.getD j 0 = 0) : (encLevels lanes dim n idx).coord = cs := by
  refine List.ext_getElem ((encPrefix_length ..).trans hlen.symm) fun j hj hj' => ?_
  rw [← List.getD_eq_getElem _ 0 hj, ← List.getD_eq_getElem _ 0 hj']
  rcases Nat.lt_or_ge j dim with hd | hd
  · exact hcomponent j hd
  · rw [encLevels_beyond _ _ _ _ _ hd, hbeyond j hd]

end

theorem indexGroup_testBit (idx dim n i k : Nat) :
    (indexGroup idx dim n i).testBit k = (decide (k < dim) && idx.testBit (k + (n - 1 - i) * dim)) := by
  rw [indexGroup_eq, Nat.testBit_mod_two_pow, Nat.testBit_div_two_pow]

theorem indexGroup_zero (dim n i : Nat) : indexGroup 0 dim n i = 0 := by
  rw [indexGroup_eq, Nat.zero_div, Nat.zero_mod]

/-- A group of one bit is 0 or 1, and entry(0) = entry(1) = 0 (41 R76). -/
theorem entry_indexGroup_line (idx n i : Nat) : entry (indexGroup idx 1 n i) = 0 := by
  have hlt : indexGroup idx 1 n i < 2 := by
    rw [indexGroup_eq]
    exact Nat.mod_lt _ (by decide)
  interval_cases indexGroup idx 1 n i <;> rfl

/-- The top group is the whole of what is left of an index in range. -/
theorem indexGroup_top {idx dim n : Nat} (hn : 1 ≤ n) (hidx : idx < 2 ^ (n * dim)) :
    indexGroup idx dim n 0 = idx / 2 ^ ((n - 1) * dim) := by
  have hsplit : 2 ^ (n * dim) = 2 ^ ((n - 1) * dim) * 2 ^ dim := by
    rw [← pow_add, ← Nat.succ_mul, Nat.succ_eq_add_one, Nat.sub_add_cancel hn]
  rw [indexGroup_eq, Nat.sub_zero, Nat.mod_eq_of_lt (Nat.div_lt_of_lt_mul (hsplit ▸ hidx))]

@[simp] theorem replicate_zero_getD (lanes j : Nat) : (List.replicate lanes 0).getD j 0 = 0 := by
  rw [List.getD_eq_getElem?_getD, List.getElem?_getD_replicate_default_eq]

/-- Index 0 is the origin: every group is 0, and so is every e. -/
theorem encLevels_origin {lanes dim : Nat} (hdim : dim ≤ lanes) (n : Nat) :
    (encLevels lanes dim n 0).coord = List.replicate lanes 0 := by
  refine encLevels_coord_eq List.length_replicate (fun j hj => ?_) fun j _ => replicate_zero_getD lanes j
  rw [replicate_zero_getD]
  refine encLevels_getD_eq (Nat.two_pow_pos n) fun i hi => ?_
  obtain ⟨k, hk, rfl⟩ := exists_add_mod_eq ((encPrefix lanes dim n 0 i).orient.d + 1) hj
  have he := encPrefix_orient_e_eq_zero (fun i => congrArg entry (indexGroup_zero dim n i)) lanes i
  have hbit := encLevels_testBit 0 hdim hi hk rfl
  simpa [he, indexGroup_zero, Nat.add_assoc] using hbit

/-- For D = 1 the coordinate is the index: a group is one bit of the index, and every e is 0. -/
theorem encLevels_line {lanes n idx : Nat} (hlanes : 1 ≤ lanes) (hidx : idx < 2 ^ n) :
    (encLevels lanes 1 n idx).coord = idx :: List.replicate (lanes - 1) 0 := by
  refine encLevels_coord_eq (by rw [List.length_cons, List.length_replicate, Nat.sub_add_cancel hlanes])
    (fun j hj => ?_) fun j hj => ?_
  · obtain rfl := Nat.lt_one_iff.1 hj
    refine encLevels_getD_eq hidx fun i hi => ?_
    have he := encPrefix_orient_e_eq_zero (entry_indexGroup_line idx n) lanes i
    have hbit := encLevels_testBit idx hlanes hi Nat.one_pos rfl
    rw [indexGroup_testBit, indexGroup_testBit, he] at hbit
    simpa [Nat.mod_one] using hbit
  · rw [← Nat.sub_add_cancel hj]
    exact replicate_zero_getD _ _

/-- Settles O25: the top group is that of level 0, which begins at (e, d) = (0, 0). -/
theorem encodeOriginAndLine : Obligations.EncodeOriginAndLine := by
  intro s hs hidx
  have hok := exec_encode_ok hs hidx
  obtain ⟨-, hdim, hdmax, -⟩ := hs
  refine ⟨fun h0 => ?_, fun h1 => ?_, fun hn => ⟨_, hok, fun k hk => ?_⟩⟩
  · rw [hok, h0, encLevels_origin hdmax, zeroCoord]
  · rw [h1, Nat.mul_one] at hidx
    rw [hok, h1, encLevels_line (hdim.trans hdmax) hidx]
  · have hbit := encLevels_testBit s.inData hdmax hn hk rfl
    rw [indexGroup_top hn hidx] at hbit
    simpa [encPrefix_zero, Orientation.initial] using hbit

end Sys2Proof.Machine
end

section
/-! PROOF. The family 42_transform: CONFIG, the reference chain of level stages, the round trip of ENCODE and DECODE, and the
neighbourhood of consecutive indices (42 R80 to R90). -/

namespace Sys2Proof.Machine

/-! ## CONFIG (42 R81, R82) -/

theorem specAccepted_iff (p : Params) (d n : Nat) :
    specAccepted p d n = true ↔ 1 ≤ d ∧ d ≤ p.dmax ∧ n * d ≤ p.iw := by
  simp [specAccepted, and_assoc]

theorem exec_config_ok {s : State} {d n : Nat} (h : specAccepted s.params d n = true) :
    exec (.config d n) s =
      .next (State.answered { s with cfg := ⟨true, BitVec.ofNat 8 d, BitVec.ofNat 8 n⟩ }
        ⟨.ok, 0, zeroCoord s.params⟩) :=
  if_pos h

theorem exec_config_invalidSpec {s : State} {d n : Nat} (h : ¬ specAccepted s.params d n = true) :
    exec (.config d n) s = .next (s.answered ⟨.invalidSpec, 0, zeroCoord s.params⟩) :=
  if_neg h

/-- Settles O22: the two clauses are the two branches of the command; a field below 256 is stored uncut. -/
theorem configSetsTheCurveSpec : Obligations.ConfigSetsTheCurveSpec := by
  intro d n s hd hn
  rw [← specAccepted_iff]
  refine ⟨decodeWord_fieldSum (.config d n) (by simp [Instr.wf, hd, hn]), fun h => ?_, exec_config_invalidSpec⟩
  exact ⟨_, exec_config_ok h, rfl, Nat.mod_eq_of_lt hd, Nat.mod_eq_of_lt hn, rfl⟩

/-! ## The answers of ENCODE and DECODE (42 R85, R88) -/

theorem exec_encode_invalidSpec {s : State} (h : s.cfg.valid = false) :
    exec .encode s = .next (s.answered ⟨.invalidSpec, 0, zeroCoord s.params⟩) :=
  if_pos h

theorem exec_encode_indexOutOfRange {s : State} (hv : s.cfg.valid = true)
    (h : 2 ^ (s.curveN * s.curveD) ≤ s.inData) :
    exec .encode s = .next (s.answered ⟨.indexOutOfRange, 0, zeroCoord s.params⟩) := by
  rw [exec, execEncode, if_neg (by simp [hv]), if_pos h, raise_eq]

theorem coordOutOfRange_iff (coord : List Nat) (dim n : Nat) :
    coordOutOfRange coord dim n = true ↔ ∃ j < dim, 2 ^ n ≤ coord.getD j 0 := by
  simp [coordOutOfRange]

section
variable {s : State} {l : Nat}

theorem exec_decode_invalidSpec (h : s.cfg.valid = false) :
    exec (.decode l) s = .next (s.answered ⟨.invalidSpec, 0, zeroCoord s.params⟩) :=
  if_pos h

theorem exec_decode_dimensionMismatch (hv : s.cfg.valid = true) (h : l ≠ s.curveD) :
    exec (.decode l) s = .next (s.answered ⟨.dimensionMismatch, 0, zeroCoord s.params⟩) := by
  rw [exec, execDecode, if_neg (by simp [hv]), if_pos h, raise_eq]

theorem exec_decode_coordinateOutOfRange (hv : s.cfg.valid = true)
    (h : coordOutOfRange s.inLanes s.curveD s.curveN = true) :
    exec (.decode s.curveD) s = .next (s.answered ⟨.coordinateOutOfRange, 0, zeroCoord s.params⟩) := by
  rw [exec, execDecode, if_neg (by simp [hv]), if_neg (not_not.2 rfl), if_pos h, raise_eq]

theorem exec_decode_ok (hv : s.cfg.valid = true) (h : ¬ coordOutOfRange s.inLanes s.curveD s.curveN = true) :
    exec (.decode s.curveD) s =
      .next (s.answered ⟨.ok, (decLevels s.inLanes s.curveD s.curveN).idx, zeroCoord s.params⟩) := by
  rw [exec, execDecode, if_neg (by simp [hv]), if_neg (not_not.2 rfl), if_neg h, respond_eq]

end

/-- Settles O24: the ranges of the lanes are those of ENCODE's levels. -/
theorem encodeStaysInTheGrid : Obligations.EncodeStaysInTheGrid := by
  intro s hs hidx
  exact ⟨_, exec_encode_ok hs hidx, encPrefix_length .., fun j _ => encLevels_lt ..,
    fun j hj => encLevels_beyond _ _ _ _ _ hj⟩

/-! ## The reference chain of level stages (42 R90) -/

/-- A chain of m stages, of which stage s does the work of level s if s < n and passes its input through otherwise, does the
work of the first min(m, n) levels. `put` is the stage's record around what the levels work on. -/
theorem foldl_stages {α β : Type} {next : α → Nat → α} {level : β → Nat → β} {put : β → α} {n : Nat}
    (hnext : ∀ c s, next (put c) s = put (if s < n then level c s else c)) (c : β) (m : Nat) :
    (List.range m).foldl next (put c) = put ((List.range (min m n)).foldl level c) := by
  induction m with
  | zero => simp
  | succ m ih =>
    rw [List.range_succ, List.foldl_append, ih, List.foldl_cons, List.foldl_nil, hnext]
    split_ifs with hm
    · rw [Nat.min_eq_left hm.le, Nat.min_eq_left hm, List.range_succ, List.foldl_append, List.foldl_cons,
        List.foldl_nil]
    · rw [Nat.min_eq_right (by omega), Nat.min_eq_right (by omega)]

/-! ### ENCODE -/

theorem EncStage.next_put {x : EncStage} (h : x.status = .ok) (c : EncCarry) (s : Nat) :
    EncStage.next { x with carry := c } s =
      { x with carry := if s < x.n then encLevel x.idx x.dim x.n s c else c } := by
  simp only [EncStage.next, h, true_and]
  split_ifs <;> rfl

theorem EncStage.foldl_next_of_ok {x : EncStage} (h : x.status = .ok) (m : Nat) :
    (List.range m).foldl EncStage.next x =
      { x with carry := (List.range (min m x.n)).foldl (fun c s => encLevel x.idx x.dim x.n s c) x.carry } :=
  foldl_stages (EncStage.next_put h) x.carry m

/-- A failed command passes through every stage. -/
theorem encPipeline_of_failed {p : Params} {cfg : CurveConfig} {idx : Nat} {e : Status}
    (hin : (EncStage.input p cfg idx).status = e) (he : e ≠ .ok) :
    encPipeline p cfg idx = ⟨e, 0, zeroCoord p⟩ := by
  have hpass : ∀ s, EncStage.next (EncStage.input p cfg idx) s = EncStage.input p cfg idx := fun s =>
    if_neg fun h => he (hin ▸ h.1)
  rw [encPipeline, List.foldl_fixed' hpass, hin]
  rfl

/-- Of IW stages the first N do the levels of ENCODE. -/
theorem encPipeline_of_ok {p : Params} {cfg : CurveConfig} {idx : Nat}
    (hin : (EncStage.input p cfg idx).status = .ok) (hn : cfg.n.toNat ≤ p.iw) :
    encPipeline p cfg idx = ⟨.ok, 0, (encLevels p.dmax cfg.d.toNat cfg.n.toNat idx).coord⟩ := by
  have hlevels : min p.iw (EncStage.input p cfg idx).n = cfg.n.toNat := Nat.min_eq_right hn
  rw [encPipeline, EncStage.foldl_next_of_ok hin, hlevels, hin]
  rfl

section
variable {s : State}

theorem encStage_input_invalidSpec (hv : s.cfg.valid = false) :
    (EncStage.input s.params s.cfg s.inData).status = .invalidSpec :=
  if_pos hv

theorem encStage_input_indexOutOfRange (hv : s.cfg.valid = true) (h : 2 ^ (s.curveN * s.curveD) ≤ s.inData) :
    (EncStage.input s.params s.cfg s.inData).status = .indexOutOfRange :=
  (if_neg (by simp [hv])).trans (if_pos h)

theorem encStage_input_ok (hv : s.cfg.valid = true) (h : s.inData < 2 ^ (s.curveN * s.curveD)) :
    (EncStage.input s.params s.cfg s.inData).status = .ok :=
  (if_neg (by simp [hv])).trans (if_neg (Nat.not_le.2 h))

end

/-- A legal CurveSpec in force is what ENCODE and DECODE ask for. -/
theorem State.configured_of_legal {s : State} (h : s.cfg.Legal s.params) (hv : s.cfg.valid = true) : s.Configured :=
  ⟨hv, h hv⟩

/-- Settles O23: the command's checks are those of the chain's input, and the chain of an index in range does the levels. -/
theorem encodeFollowsTheStageChain : Obligations.EncodeFollowsTheStageChain := by
  intro s hlegal
  have hok (hv : s.cfg.valid = true) (hidx : s.inData < 2 ^ (s.curveN * s.curveD)) :=
    encPipeline_of_ok (encStage_input_ok hv hidx) (hlegal.n_le hv)
  refine ⟨by decide, exec_encode_invalidSpec, exec_encode_indexOutOfRange,
    fun hv hidx => congrArg Response.status (hok hv hidx), ?_⟩
  cases hv : s.cfg.valid with
  | false =>
    rw [exec_encode_invalidSpec hv, encPipeline_of_failed (encStage_input_invalidSpec hv) (by decide)]
  | true =>
    rcases Nat.lt_or_ge s.inData (2 ^ (s.curveN * s.curveD)) with hidx | hidx
    · rw [exec_encode_ok (State.configured_of_legal hlegal hv) hidx, hok hv hidx]
      rfl
    · rw [exec_encode_indexOutOfRange hv hidx,
        encPipeline_of_failed (encStage_input_indexOutOfRange hv hidx) (by decide)]

/-! ### DECODE -/

theorem DecStage.next_put {x : DecStage} (h : x.status = .ok) (c : DecCarry) (s : Nat) :
    DecStage.next { x with carry := c } s =
      { x with carry := if s < x.n then decLevel x.coord x.dim x.n s c else c } := by
  simp only [DecStage.next, h, true_and]
  split_ifs <;> rfl

theorem DecStage.foldl_next_of_ok {x : DecStage} (h : x.status = .ok) (m : Nat) :
    (List.range m).foldl DecStage.next x =
      { x with carry := (List.range (min m x.n)).foldl (fun c s => decLevel x.coord x.dim x.n s c) x.carry } :=
  foldl_stages (DecStage.next_put h) x.carry m

/-- A failed command passes through every stage. -/
theorem decPipeline_of_failed {cfg : CurveConfig} {l : Nat} {coord : List Nat} {e : Status}
    (hin : (DecStage.input cfg l coord).status = e) (he : e ≠ .ok) (p : Params) :
    decPipeline p cfg l coord = ⟨e, 0, zeroCoord p⟩ := by
  have hpass : ∀ s, DecStage.next (DecStage.input cfg l coord) s = DecStage.input cfg l coord := fun s =>
    if_neg fun h => he (hin ▸ h.1)
  rw [decPipeline, List.foldl_fixed' hpass, hin]
  rfl

/-- Of IW stages the first N do the levels of DECODE. -/
theorem decPipeline_of_ok {p : Params} {cfg : CurveConfig} {l : Nat} {coord : List Nat}
    (hin : (DecStage.input cfg l coord).status = .ok) (hn : cfg.n.toNat ≤ p.iw) :
    decPipeline p cfg l coord = ⟨.ok, (decLevels coord cfg.d.toNat cfg.n.toNat).idx, zeroCoord p⟩ := by
  have hlevels : min p.iw (DecStage.input cfg l coord).n = cfg.n.toNat := Nat.min_eq_right hn
  rw [decPipeline, DecStage.foldl_next_of_ok hin, hlevels, hin]
  rfl

section
variable {s : State} {l : Nat}

theorem decStage_input_invalidSpec (hv : s.cfg.valid = false) :
    (DecStage.input s.cfg l s.inLanes).status = .invalidSpec :=
  if_pos hv

theorem decStage_input_dimensionMismatch (hv : s.cfg.valid = true) (h : l ≠ s.curveD) :
    (DecStage.input s.cfg l s.inLanes).status = .dimensionMismatch :=
  (if_neg (by simp [hv])).trans (if_pos h)

theorem decStage_input_coordinateOutOfRange (hv : s.cfg.valid = true)
    (h : coordOutOfRange s.inLanes s.curveD s.curveN = true) :
    (DecStage.input s.cfg s.curveD s.inLanes).status = .coordinateOutOfRange :=
  ((if_neg (by simp [hv])).trans (if_neg (not_not.2 rfl))).trans (if_pos h)

theorem decStage_input_ok (hv : s.cfg.valid = true) (h : ¬ coordOutOfRange s.inLanes s.curveD s.curveN = true) :
    (DecStage.input s.cfg s.curveD s.inLanes).status = .ok :=
  ((if_neg (by simp [hv])).trans (if_neg (not_not.2 rfl))).trans (if_neg h)

end

/-- The range check of DECODE passes a coordinate of the grid. -/
theorem not_coordOutOfRange {coord : List Nat} {dim n : Nat} (h : ∀ j < dim, coord.getD j 0 < 2 ^ n) :
    ¬ coordOutOfRange coord dim n = true := by
  rw [coordOutOfRange_iff]
  rintro ⟨j, hj, hle⟩
  exact Nat.not_le.2 (h j hj) hle

/-- Settles O26: the command's checks, in their order, are those of the chain's input, and the chain of a coordinate in range
does the levels. -/
theorem decodeFollowsTheStageChain : Obligations.DecodeFollowsTheStageChain := by
  intro s l hl hlegal
  have hok (hv : s.cfg.valid = true) (hrange : ¬ coordOutOfRange s.inLanes s.curveD s.curveN = true) :=
    decPipeline_of_ok (decStage_input_ok hv hrange) (hlegal.n_le hv)
  refine ⟨decodeWord_fieldSum (.decode l) (by simp [Instr.wf, hl]), exec_decode_invalidSpec,
    exec_decode_dimensionMismatch, ?_, ?_, ?_⟩
  · rintro hv rfl hj
    exact exec_decode_coordinateOutOfRange hv ((coordOutOfRange_iff ..).2 hj)
  · rintro hv rfl hgrid
    exact congrArg Response.status (hok hv (not_coordOutOfRange hgrid))
  · cases hv : s.cfg.valid with
    | false =>
      rw [exec_decode_invalidSpec hv, decPipeline_of_failed (decStage_input_invalidSpec hv) (by decide)]
    | true =>
      by_cases hdim : l = s.curveD
      · subst hdim
        by_cases hrange : coordOutOfRange s.inLanes s.curveD s.curveN = true
        · rw [exec_decode_coordinateOutOfRange hv hrange,
            decPipeline_of_failed (decStage_input_coordinateOutOfRange hv hrange) (by decide)]
        · rw [exec_decode_ok hv hrange, hok hv hrange]
          rfl
      · rw [exec_decode_dimensionMismatch hv hdim,
          decPipeline_of_failed (decStage_input_dimensionMismatch hv hdim) (by decide)]

/-! ## The groups of an index (42 R83) -/

/-- An index cut to its first k + 1 groups is the index cut to its first k, and then group k. -/
theorem div_two_pow_levels_succ (idx dim : Nat) {n k : Nat} (hk : k < n) :
    idx / 2 ^ ((n - (k + 1)) * dim) = idx / 2 ^ ((n - k) * dim) * 2 ^ dim + indexGroup idx dim n k := by
  have hlevels : (n - k) * dim = (n - (k + 1)) * dim + dim := by
    rw [← Nat.succ_mul, Nat.succ_eq_add_one]
    congr 1
    omega
  rw [indexGroup_eq, Nat.sub_sub, Nat.add_comm 1 k, hlevels, pow_add, ← Nat.div_div_eq_div_mul, Nat.div_add_mod']

theorem indexGroup_lt (idx dim n i : Nat) : indexGroup idx dim n i < 2 ^ dim := by
  rw [indexGroup_eq]
  exact Nat.mod_lt _ (Nat.two_pow_pos _)

/-! ## One level -/

section
variable {o : Orientation} {dim : Nat} (hdim : 1 ≤ dim) (ho : o.e < 2 ^ dim ∧ o.d < dim)
include hdim ho

/-- A level of DECODE finds the group that a level of ENCODE of the same orientation wrote. -/
theorem grayDecode_toCurve_fromCurve {w : Nat} (hw : w < 2 ^ dim) :
    grayDecode (o.toCurve (o.fromCurve (grayEncode w) dim) dim) = w := by
  rw [(levelTransformsAreInverse o _ dim hdim ho.1 ho.2 (grayEncode_lt hw)).1, grayDecode_grayEncode]

/-- A level of ENCODE writes the bits in which a level of DECODE of the same orientation found the group. -/
theorem fromCurve_grayEncode_grayDecode {l : Nat} (hl : l < 2 ^ dim) :
    o.fromCurve (grayEncode (grayDecode (o.toCurve l dim))) dim = l := by
  rw [grayEncode_grayDecode, (levelTransformsAreInverse o l dim hdim ho.1 ho.2 hl).2]

end

theorem gatherBits_lt (dim k : Nat) (coord : List Nat) : gatherBits dim k coord < 2 ^ dim := by
  refine Nat.lt_pow_two_of_testBit _ fun j hj => ?_
  rw [gatherBits_testBit, decide_eq_false (by omega), Bool.false_and]

/-- What a level of DECODE gathers from ENCODE's coordinate is what the level of ENCODE scattered. -/
theorem gatherBits_encLevels {lanes dim n i : Nat} (idx : Nat) (hdim : 1 ≤ dim) (hlanes : dim ≤ lanes) (hi : i < n) :
    gatherBits dim (n - i - 1) (encLevels lanes dim n idx).coord =
      (encPrefix lanes dim n idx i).orient.fromCurve (grayEncode (indexGroup idx dim n i)) dim := by
  refine eq_of_testBit_eq_below (gatherBits_lt ..)
    (Orientation.fromCurve_lt _ (encPrefix_orient _ _ _ _ _ hdim).1) fun j hj => ?_
  rw [gatherBits_testBit, decide_eq_true hj, Bool.true_and, Nat.sub_right_comm, encLevels_eq,
    encPrefix_testBit_written idx hlanes hi hj hi le_rfl]

/-! ## DECODE after ENCODE -/

/-- DECODE of ENCODE's coordinate follows ENCODE level by level, with the same orientations and groups. -/
theorem decPrefix_encLevels {lanes dim n idx k : Nat} (hdim : 1 ≤ dim) (hlanes : dim ≤ lanes)
    (hidx : idx < 2 ^ (n * dim)) (hk : k ≤ n) :
    decPrefix (encLevels lanes dim n idx).coord dim n k =
      ⟨(encPrefix lanes dim n idx k).orient, idx / 2 ^ ((n - k) * dim)⟩ := by
  induction k with
  | zero => rw [Nat.sub_zero, Nat.div_eq_of_lt hidx, decPrefix_zero, encPrefix_zero]
  | succ k ih =>
    have hgroup := grayDecode_toCurve_fromCurve hdim (encPrefix_orient lanes dim n idx k hdim)
      (indexGroup_lt idx dim n k)
    rw [decPrefix_succ, ih (by omega), decLevel, gatherBits_encLevels idx hdim hlanes hk, hgroup,
      encPrefix_succ_orient, div_two_pow_levels_succ idx dim hk,
      ← Nat.shiftLeft_add_eq_or_of_lt (indexGroup_lt ..), Nat.shiftLeft_eq]

theorem decLevels_encLevels {lanes dim n idx : Nat} (hdim : 1 ≤ dim) (hlanes : dim ≤ lanes)
    (hidx : idx < 2 ^ (n * dim)) : (decLevels (encLevels lanes dim n idx).coord dim n).idx = idx := by
  rw [decLevels_eq, decPrefix_encLevels hdim hlanes hidx le_rfl, Nat.sub_self, Nat.zero_mul, pow_zero, Nat.div_one]

/-- ENCODE's answer in range tells its coordinate. -/
theorem coord_of_exec_encode {s : State} {c : List Nat} (hs : s.Configured)
    (hidx : s.inData < 2 ^ (s.curveN * s.curveD)) (h : exec .encode s = .next (s.answered ⟨.ok, 0, c⟩)) :
    c = (encLevels s.params.dmax s.curveD s.curveN s.inData).coord :=
  congrArg Response.coord (s.answered_injective (Host.Outcome.next.inj (h.symm.trans (exec_encode_ok hs hidx))))

theorem State.curveD_congr {s u : State} (h : u.cfg = s.cfg) : u.curveD = s.curveD := congrArg (·.d.toNat) h
theorem State.curveN_congr {s u : State} (h : u.cfg = s.cfg) : u.curveN = s.curveN := congrArg (·.n.toNat) h

theorem State.Configured.congr {s u : State} (h : s.Configured) (hp : u.params = s.params) (hcfg : u.cfg = s.cfg) :
    u.Configured := by
  unfold State.Configured
  rw [State.curveD_congr hcfg, State.curveN_congr hcfg, hp, hcfg]
  exact h

/-- Settles O27: DECODE reads the lanes below D only, which are ENCODE's coordinate, and so inside the grid. -/
theorem decodeInvertsEncode : Obligations.DecodeInvertsEncode := by
  intro s u c hs hp hcfg hidx henc hlane
  obtain rfl := coord_of_exec_encode hs hidx henc
  obtain ⟨hv, hdim, hdmax, -⟩ := hs
  have hgrid : ∀ j < u.curveD, u.inLanes.getD j 0 < 2 ^ u.curveN := fun j hj => by
    rw [State.curveN_congr hcfg]
    exact (hlane j (State.curveD_congr hcfg ▸ hj)).trans_lt (encLevels_lt ..)
  have hok := exec_decode_ok (hcfg ▸ hv) (not_coordOutOfRange hgrid)
  rw [State.curveD_congr hcfg, State.curveN_congr hcfg, hp] at hok
  rw [hok, decLevels_congr hlane, decLevels_encLevels hdim hdmax hidx]

/-! ## ENCODE after DECODE -/

/-- The group that level i of DECODE finds (42 R87, step 2). -/
def decGroup (coord : List Nat) (dim n i : Nat) : Nat :=
  grayDecode ((decPrefix coord dim n i).orient.toCurve (gatherBits dim (n - i - 1) coord) dim)

theorem decGroup_lt (coord : List Nat) (dim n i : Nat) : decGroup coord dim n i < 2 ^ dim :=
  grayDecode_lt (Orientation.toCurve_lt ..)

theorem decPrefix_succ_orient (coord : List Nat) (dim n i : Nat) :
    (decPrefix coord dim n (i + 1)).orient = (decPrefix coord dim n i).orient.update (decGroup coord dim n i) dim := by
  rw [decPrefix_succ]
  rfl

theorem decPrefix_succ_idx (coord : List Nat) (dim n i : Nat) :
    (decPrefix coord dim n (i + 1)).idx = (decPrefix coord dim n i).idx * 2 ^ dim + decGroup coord dim n i := by
  rw [decPrefix_succ, ← Nat.shiftLeft_eq, Nat.shiftLeft_add_eq_or_of_lt (decGroup_lt ..)]
  rfl

/-- The levels after the first k of DECODE only append groups to the index. -/
theorem decPrefix_idx_div (coord : List Nat) (dim n k m : Nat) :
    (decPrefix coord dim n (k + m)).idx / 2 ^ (m * dim) = (decPrefix coord dim n k).idx := by
  induction m with
  | zero => simp
  | succ m ih =>
    have hdiv : (decPrefix coord dim n (k + m + 1)).idx / 2 ^ dim = (decPrefix coord dim n (k + m)).idx := by
      rw [decPrefix_succ_idx, Nat.add_comm, Nat.add_mul_div_right _ _ (Nat.two_pow_pos _),
        Nat.div_eq_of_lt (decGroup_lt ..), Nat.zero_add]
    rw [← Nat.add_assoc, Nat.succ_mul, Nat.add_comm (m * dim), pow_add, ← Nat.div_div_eq_div_mul, hdiv, ih]

section
variable {coord : List Nat} {dim n : Nat}

/-- Group i of DECODE's index is the group that its level i found. -/
theorem indexGroup_decLevels {i : Nat} (hi : i < n) :
    indexGroup (decLevels coord dim n).idx dim n i = decGroup coord dim n i := by
  have hdiv := decPrefix_idx_div coord dim n (i + 1) (n - 1 - i)
  rw [show i + 1 + (n - 1 - i) = n by omega] at hdiv
  rw [indexGroup_eq, decLevels_eq, hdiv, decPrefix_succ_idx, Nat.mul_add_mod', Nat.mod_eq_of_lt (decGroup_lt ..)]

/-- ENCODE of DECODE's index follows DECODE level by level, with the same orientations. -/
theorem encPrefix_decLevels_orient (lanes : Nat) {k : Nat} (hk : k ≤ n) :
    (encPrefix lanes dim n (decLevels coord dim n).idx k).orient = (decPrefix coord dim n k).orient := by
  induction k with
  | zero => rfl
  | succ k ih => rw [encPrefix_succ_orient, ih (by omega), indexGroup_decLevels hk, decPrefix_succ_orient]

/-- ENCODE of DECODE's index writes at each level the bits that DECODE gathered there. -/
theorem encLevels_decLevels {lanes j : Nat} (hdim : 1 ≤ dim) (hlanes : dim ≤ lanes) (hj : j < dim)
    (hgrid : coord.getD j 0 < 2 ^ n) :
    (encLevels lanes dim n (decLevels coord dim n).idx).coord.getD j 0 = coord.getD j 0 := by
  refine encLevels_getD_eq hgrid fun i hi => ?_
  have hlevel := fromCurve_grayEncode_grayDecode hdim (decPrefix_orient coord dim n i hdim)
    (gatherBits_lt dim (n - i - 1) coord)
  rw [encLevels_eq, encPrefix_testBit_written _ hlanes hi hj hi le_rfl, encPrefix_decLevels_orient lanes hi.le,
    indexGroup_decLevels hi, decGroup, hlevel, gatherBits_testBit, decide_eq_true hj, Bool.true_and, Nat.sub_right_comm]

end

/-- Settles O28: the index that DECODE answered is in range, and ENCODE gives the components back bit by bit. -/
theorem encodeInvertsDecode : Obligations.EncodeInvertsDecode := by
  intro s u idx hs hp hcfg hgrid hdec hdata
  have hu := hs.congr hp hcfg
  obtain ⟨hv, hdim, hdmax, -⟩ := hs
  have hidx : idx = (decLevels s.inLanes s.curveD s.curveN).idx :=
    State.answered_data_eq (hdec.symm.trans (exec_decode_ok hv (not_coordOutOfRange hgrid)))
  have hrange : u.inData < 2 ^ (u.curveN * u.curveD) := by
    rw [State.curveD_congr hcfg, State.curveN_congr hcfg, hdata, hidx]
    exact decLevels_idx_lt ..
  refine ⟨_, exec_encode_ok hu hrange, fun j hj => ?_⟩
  rw [State.curveD_congr hcfg, State.curveN_congr hcfg, hp, hdata, hidx]
  exact encLevels_decLevels hdim hdmax hj (hgrid j hj)

/-! ## Consecutive indices (42 R89)

Level by level, ENCODE picks a cell of the grid and a sub-cell in it. Two consecutive indices share their first cells; then
they are in sub-cells w and w + 1 of one cell; from there on the first is always in the last sub-cell of its cell and the
second in the first of its own. The curve enters a cell at the corner e and leaves it at the corner e xor 2^d. The recurrence
is made so that the corner at which it leaves sub-cell w and the corner at which it enters sub-cell w + 1 are neighbours. -/

/-! ## The step of the Gray code -/

theorem grayEncode_succ_of_even {x : Nat} (h : x % 2 = 0) : grayEncode (x + 1) = grayEncode x ^^^ 1 := by
  have hhalf : (x + 1) / 2 = x / 2 := by omega
  have hodd : (x + 1) % 2 = 1 := by omega
  refine Nat.eq_of_testBit_eq fun m => ?_
  rw [Nat.testBit_xor, grayEncode_testBit, grayEncode_testBit]
  cases m with
  | zero => simp [Nat.testBit_succ, Nat.testBit_zero, hhalf, h, hodd]
  | succ m => simp [Nat.testBit_succ, hhalf]

theorem grayEncode_div_two (x : Nat) : grayEncode x / 2 = grayEncode (x / 2) := by
  rw [grayEncode_eq, grayEncode_eq, Nat.xor_div_two]

/-- The next Gray code differs in the bit that the trailing ones of the number count to (40 R63, R65). -/
theorem grayEncode_succ {x width : Nat} (h : x + 1 < 2 ^ width) :
    grayEncode (x + 1) = grayEncode x ^^^ 2 ^ trailingSetBits x width := by
  induction width generalizing x with
  | zero => omega
  | succ width ih =>
    rw [trailingSetBits]
    split_ifs with hodd
    · have hhalf : (x + 1) / 2 = x / 2 + 1 := by omega
      have heven : (x + 1) % 2 = 0 := by omega
      have ih' := ih (x := x / 2) (by rw [pow_succ] at h; omega)
      refine Nat.eq_of_testBit_eq fun m => ?_
      rw [Nat.testBit_xor]
      cases m with
      | zero =>
        rw [grayEncode_testBit, grayEncode_testBit, Nat.testBit_succ, Nat.testBit_succ, hhalf]
        rcases Nat.mod_two_eq_zero_or_one (x / 2) with hx | hx <;>
          simp [Nat.testBit_zero, heven, hodd, hx, Nat.add_mod]
      | succ m =>
        rw [Nat.testBit_succ, Nat.testBit_succ, Nat.testBit_succ, grayEncode_div_two, grayEncode_div_two, hhalf, ih',
          Nat.testBit_xor, Nat.pow_succ, Nat.mul_div_cancel _ (by decide)]
    · exact grayEncode_succ_of_even (by omega)

theorem trailingSetBits_lt {x width : Nat} (h : x + 1 < 2 ^ width) : trailingSetBits x width < width := by
  refine (trailingSetBits_le x width).lt_of_ne fun heq => ?_
  have hones := mod_two_pow_trailingSetBits x width
  rw [heq, Nat.mod_eq_of_lt (by omega)] at hones
  omega

/-! ## The corners of the sub-cells, in the frame of their cell (41 R75, R76) -/

/-- The corner at which the curve leaves sub-cell w; it enters it at `entry w`. -/
def exitCorner (w dim : Nat) : Nat := entry w ^^^ 2 ^ direction w dim

theorem entry_succ (w : Nat) : entry (w + 1) = grayEncode (2 * (w / 2)) := by
  rw [entry, if_neg (Nat.succ_ne_zero w), Nat.add_sub_cancel]

theorem entry_succ_of_even {w : Nat} (h : w % 2 = 0) : entry (w + 1) = grayEncode w := by
  rw [entry_succ, show 2 * (w / 2) = w by omega]

theorem entry_of_odd {w : Nat} (h : w % 2 = 1) : entry w = grayEncode w ^^^ 1 := by
  obtain ⟨v, rfl⟩ : ∃ v, w = v + 1 := ⟨w - 1, by omega⟩
  have hv : v % 2 = 0 := by omega
  rw [entry_succ_of_even hv, grayEncode_succ_of_even hv, Nat.xor_assoc, Nat.xor_self, Nat.xor_zero]

theorem entry_succ_of_odd {w : Nat} (h : w % 2 = 1) : entry (w + 1) = entry w := by
  obtain ⟨v, rfl⟩ : ∃ v, w = v + 1 := ⟨w - 1, by omega⟩
  rw [entry_succ, entry_succ, show (v + 1) / 2 = v / 2 by omega]

theorem trailingSetBits_of_even {w : Nat} (h : w % 2 = 0) (dim : Nat) : trailingSetBits w dim = 0 := by
  cases dim with
  | zero => rfl
  | succ dim => rw [trailingSetBits, if_neg (by omega)]

section
variable {w dim : Nat} (h : w + 1 < 2 ^ dim)
include h

/-- The curve enters sub-cell w + 1 at the corner at which it leaves sub-cell w, moved along the axis on which the two
sub-cells lie. -/
theorem entry_succ_eq_exitCorner : entry (w + 1) = exitCorner w dim ^^^ 2 ^ trailingSetBits w dim := by
  rcases Nat.mod_two_eq_zero_or_one w with heven | hodd
  · rw [entry_succ_of_even heven, trailingSetBits_of_even heven]
    cases w with
    | zero => simp [exitCorner, entry, direction, grayEncode]
    | succ v =>
      have hv : v % 2 = 1 := by omega
      have hdir : direction (v + 1) dim = trailingSetBits v dim := by
        rw [direction, if_neg (Nat.succ_ne_zero v), if_pos heven, Nat.add_sub_cancel,
          Nat.mod_eq_of_lt (trailingSetBits_lt (by omega))]
      rw [exitCorner, entry_succ_of_odd hv, entry_of_odd hv, hdir, grayEncode_succ (width := dim) (by omega),
        pow_zero, Nat.xor_right_comm, Nat.xor_assoc (grayEncode v), Nat.xor_self, Nat.xor_zero]
  · rw [entry_succ_of_odd hodd, exitCorner, direction_of_odd hodd, Nat.mod_eq_of_lt (trailingSetBits_lt h), Nat.xor_assoc,
      Nat.xor_self, Nat.xor_zero]

/-- On that axis the curve enters sub-cell w + 1 on the side on which sub-cell w lies. -/
theorem entry_succ_testBit_trailingSetBits :
    (entry (w + 1)).testBit (trailingSetBits w dim) = (grayEncode w).testBit (trailingSetBits w dim) := by
  rcases Nat.mod_two_eq_zero_or_one w with heven | hodd
  · rw [entry_succ_of_even heven]
  · have hpos : trailingSetBits w dim ≠ 0 := by
      cases dim with
      | zero => omega
      | succ dim => simp [trailingSetBits, hodd]
    rw [entry_succ_of_odd hodd, entry_of_odd hodd, Nat.testBit_xor, ← pow_zero 2, Nat.testBit_two_pow,
      decide_eq_false hpos.symm, Bool.xor_false]

/-- On every other axis the sub-cells w and w + 1 have the same side and corner; on that one, w + 1 lies where the curve
leaves w, and is entered where w lies. -/
theorem subcells_touch (k : Nat) :
    ((grayEncode (w + 1)).testBit k = (grayEncode w).testBit k ∧
      (entry (w + 1)).testBit k = (exitCorner w dim).testBit k) ∨
    ((grayEncode (w + 1)).testBit k = (exitCorner w dim).testBit k ∧
      (entry (w + 1)).testBit k = (grayEncode w).testBit k) := by
  have hgray := congrArg (·.testBit k) (grayEncode_succ h)
  have hentry := congrArg (·.testBit k) (entry_succ_eq_exitCorner h)
  simp only [Nat.testBit_xor, Nat.testBit_two_pow] at hgray hentry
  by_cases hk : trailingSetBits w dim = k
  · have hside := entry_succ_testBit_trailingSetBits h
    rw [hk] at hside
    refine .inr ⟨?_, hside⟩
    rw [hgray, ← hside, hentry]
    simp [hk]
  · exact .inl (by simpa [hk] using And.intro hgray hentry)

theorem exists_exitCorner_ne_entry_succ :
    ∃ k < dim, (exitCorner w dim).testBit k ≠ (entry (w + 1)).testBit k := by
  refine ⟨_, trailingSetBits_lt h, ?_⟩
  simp [entry_succ_eq_exitCorner h]

end

/-- The curve leaves the last sub-cell at its outermost corner. -/
theorem exitCorner_allOnes {dim : Nat} (hdim : 1 ≤ dim) :
    exitCorner (2 ^ dim - 1) dim = grayEncode (2 ^ dim - 1) := by
  have hodd : (2 ^ dim - 1) % 2 = 1 := by
    rw [Nat.two_pow_sub_one_mod_two, Nat.mod_eq_of_lt (Nat.one_lt_two_pow (Nat.one_le_iff_ne_zero.1 hdim))]
  rw [exitCorner, entry_of_odd hodd, (allOnesHasDirectionZero dim hdim).2, pow_zero, Nat.xor_assoc, Nat.xor_self,
    Nat.xor_zero]

/-! ## The corners of a cell, on the grid (41 R77, R78) -/

/-- The corner at which the curve leaves a cell of this orientation; it enters it at `e`. -/
def Orientation.exit (o : Orientation) : Nat := o.e ^^^ 2 ^ o.d

theorem add_mod_inj {k k' dim : Nat} (hk : k < dim) (hk' : k' < dim) (a : Nat) :
    (k + a) % dim = (k' + a) % dim ↔ k = k' :=
  ⟨fun h => Nat.ModEq.eq_of_lt_of_lt (Nat.ModEq.add_right_cancel' a h) hk hk', fun h => by rw [h]⟩

theorem Orientation.update_exit_testBit (o : Orientation) (w : Nat) {k dim : Nat} (hk : k < dim) :
    (o.update w dim).exit.testBit ((k + o.d + 1) % dim) =
      ((exitCorner w dim).testBit k ^^ o.e.testBit ((k + o.d + 1) % dim)) := by
  have haxis : (o.update w dim).d = (k + o.d + 1) % dim ↔ direction w dim = k := by
    rw [← add_mod_inj (direction_lt w (by omega)) hk (o.d + 1), Orientation.update, Nat.add_comm o.d (direction w dim),
      Nat.add_assoc, Nat.add_assoc]
  rw [Orientation.exit, exitCorner, Nat.testBit_xor, Nat.testBit_xor, Orientation.update_e_testBit _ _ hk,
    Nat.testBit_two_pow, Nat.testBit_two_pow, decide_eq_decide.2 haxis, Bool.xor_assoc, Bool.xor_comm]

theorem Orientation.fromCurve_zero (o : Orientation) (dim : Nat) : o.fromCurve (grayEncode 0) dim = o.e := by
  rw [Orientation.fromCurve, show grayEncode 0 = 0 from rfl, rotateLeft_zero, Nat.zero_xor]

theorem Orientation.update_zero_e (o : Orientation) (dim : Nat) : (o.update 0 dim).e = o.e := by
  rw [Orientation.update, show entry 0 = 0 from rfl, rotateLeft_zero, Nat.xor_zero]

section
variable {o : Orientation} {dim j : Nat} (hd : o.d < dim) (hj : j < dim)
include hd hj

/-- The last sub-cell lies at the corner at which the curve leaves the cell. -/
theorem Orientation.fromCurve_allOnes_testBit :
    (o.fromCurve (grayEncode (2 ^ dim - 1)) dim).testBit j = o.exit.testBit j := by
  obtain ⟨k, hk, rfl⟩ := exists_add_mod_eq (o.d + 1) hj
  have hlast : (dim - 1 + (o.d + 1)) % dim = o.d := by
    rw [show dim - 1 + (o.d + 1) = o.d + dim by omega, Nat.add_mod_right, Nat.mod_eq_of_lt hd]
  have haxis : o.d = (k + o.d + 1) % dim ↔ dim - 1 = k := by
    rw [← add_mod_inj (by omega) hk (o.d + 1), hlast, Nat.add_assoc]
  have hbit : (grayEncode (2 ^ dim - 1)).testBit k = decide (dim - 1 = k) := by
    rw [grayEncode_testBit, Nat.testBit_two_pow_sub_one, Nat.testBit_two_pow_sub_one, decide_eq_true hk, Bool.true_xor,
      ← decide_not, decide_eq_decide]
    omega
  rw [← Nat.add_assoc, Orientation.fromCurve_testBit _ _ hk, hbit, Orientation.exit, Nat.testBit_xor, Nat.testBit_two_pow,
    decide_eq_decide.2 haxis, Bool.xor_comm]

/-- The curve leaves the last sub-cell where it leaves the cell. -/
theorem Orientation.update_allOnes_exit_testBit :
    (o.update (2 ^ dim - 1) dim).exit.testBit j = o.exit.testBit j := by
  rw [← Orientation.fromCurve_allOnes_testBit hd hj]
  obtain ⟨k, hk, rfl⟩ := exists_add_mod_eq (o.d + 1) hj
  rw [← Nat.add_assoc, Orientation.update_exit_testBit _ _ hk, exitCorner_allOnes (by omega),
    Orientation.fromCurve_testBit _ _ hk]

end

/-! ## Cells of the grid (42 R84) -/

/-- A cell of the grid: its orientation, and of each component the bits that the levels so far have written. -/
structure GridCell where
  orient : Orientation
  pos : Nat → Nat

/-- Sub-cell w of a cell. -/
def GridCell.sub (c : GridCell) (dim w : Nat) : GridCell :=
  { orient := c.orient.update w dim
    pos := fun j => 2 * c.pos j + ((c.orient.fromCurve (grayEncode w) dim).testBit j).toNat }

/-- The corner at which the curve leaves the cell c is, on the grid of the cells' corners, the corner at which it enters the
cell c', and the two cells are not the same. -/
structure GridCell.Touches (dim : Nat) (c c' : GridCell) : Prop where
  corner : ∀ j < dim, c.pos j + (c.orient.exit.testBit j).toNat = c'.pos j + (c'.orient.e.testBit j).toNat
  apart : ∃ j < dim, c.orient.exit.testBit j ≠ c'.orient.e.testBit j

/-- Cells that touch are at Chebyshev distance 1. -/
theorem GridCell.Touches.neighbours {dim : Nat} {c c' : GridCell} (h : c.Touches dim c') :
    (∀ j < dim, c.pos j ≤ c'.pos j + 1 ∧ c'.pos j ≤ c.pos j + 1) ∧ ∃ j < dim, c.pos j ≠ c'.pos j := by
  constructor
  · intro j hj
    have hcorner := h.corner j hj
    have hexit := (c.orient.exit.testBit j).toNat_le
    have hentry := (c'.orient.e.testBit j).toNat_le
    omega
  · obtain ⟨j, hj, hne⟩ := h.apart
    have hcorner := h.corner j hj
    refine ⟨j, hj, fun hpos => hne ?_⟩
    rw [Bool.eq_iff_iff, ← Bool.toNat_eq_one, ← Bool.toNat_eq_one]
    omega

/-- The sub-cells w and w + 1 of a cell touch. -/
theorem GridCell.touches_sub_succ {dim w : Nat} (c : GridCell) (h : w + 1 < 2 ^ dim) :
    (c.sub dim w).Touches dim (c.sub dim (w + 1)) where
  corner j hj := by
    obtain ⟨k, hk, rfl⟩ := exists_add_mod_eq (c.orient.d + 1) hj
    simp only [GridCell.sub, ← Nat.add_assoc, Orientation.update_exit_testBit _ _ hk, Orientation.update_e_testBit _ _ hk,
      Orientation.fromCurve_testBit _ _ hk]
    rcases subcells_touch h k with ⟨hside, hcorner⟩ | ⟨hside, hcorner⟩
    · rw [hside, hcorner, Bool.xor_comm (c.orient.e.testBit _)]
    · rw [hside, hcorner, Bool.xor_comm (c.orient.e.testBit _), Nat.add_right_comm]
  apart := by
    obtain ⟨k, hk, hne⟩ := exists_exitCorner_ne_entry_succ h
    refine ⟨_, Nat.mod_lt (k + c.orient.d + 1) (by omega), ?_⟩
    simpa only [GridCell.sub, Orientation.update_exit_testBit _ _ hk, Orientation.update_e_testBit _ _ hk, Ne,
      Bool.xor_comm (c.orient.e.testBit _), Bool.xor_left_inj] using hne

/-- The last sub-cell of a cell touches the first sub-cell of a cell that the cell touches. -/
theorem GridCell.Touches.sub {dim : Nat} {c c' : GridCell} (h : c.Touches dim c') (hd : c.orient.d < dim) :
    (c.sub dim (2 ^ dim - 1)).Touches dim (c'.sub dim 0) where
  corner j hj := by
    have hcorner := h.corner j hj
    simp only [GridCell.sub, Orientation.fromCurve_allOnes_testBit hd hj, Orientation.update_allOnes_exit_testBit hd hj,
      Orientation.fromCurve_zero, Orientation.update_zero_e]
    omega
  apart := by
    obtain ⟨j, hj, hne⟩ := h.apart
    refine ⟨j, hj, ?_⟩
    simpa only [GridCell.sub, Orientation.update_allOnes_exit_testBit hd hj, Orientation.update_zero_e] using hne

/-! ## The cells of ENCODE -/

/-- The cell in which ENCODE is after k levels. -/
def encCell (lanes dim n idx k : Nat) : GridCell :=
  { orient := (encPrefix lanes dim n idx k).orient
    pos := fun j => (encLevels lanes dim n idx).coord.getD j 0 / 2 ^ (n - k) }

section
variable {lanes dim n : Nat}

theorem encCell_zero (idx : Nat) : encCell lanes dim n idx 0 = ⟨Orientation.initial, fun _ => 0⟩ := by
  have hpos (j : Nat) : (encLevels lanes dim n idx).coord.getD j 0 / 2 ^ n = 0 := Nat.div_eq_of_lt (encLevels_lt ..)
  simp only [encCell, encPrefix_zero, Nat.sub_zero, hpos]

theorem encCell_pos_all (idx j : Nat) :
    (encCell lanes dim n idx n).pos j = (encLevels lanes dim n idx).coord.getD j 0 := by
  simp [encCell]

variable (hdim : 1 ≤ dim) (hlanes : dim ≤ lanes)
include hdim hlanes

/-- Level k goes to the sub-cell that group k of the index names. -/
theorem encCell_succ (idx : Nat) {k : Nat} (hk : k < n) :
    encCell lanes dim n idx (k + 1) = (encCell lanes dim n idx k).sub dim (indexGroup idx dim n k) := by
  have hlevel (x : Nat) : x / 2 ^ (n - (k + 1)) = 2 * (x / 2 ^ (n - k)) + (x.testBit (n - 1 - k)).toNat := by
    rw [Nat.toNat_testBit, show n - (k + 1) = n - 1 - k by omega, show n - k = n - 1 - k + 1 by omega, pow_succ,
      ← Nat.div_div_eq_div_mul]
    omega
  simp only [encCell, GridCell.sub, encPrefix_succ_orient, hlevel]
  congr 1
  funext j
  rcases Nat.lt_or_ge j dim with hj | hj
  · rw [encLevels_eq, encPrefix_testBit_written idx hlanes hk hj hk le_rfl]
  · have hwide := Orientation.fromCurve_lt (grayEncode (indexGroup idx dim n k))
      (encPrefix_orient lanes dim n idx k hdim).1
    rw [encLevels_beyond _ _ _ _ _ hj, Nat.zero_testBit,
      Nat.testBit_lt_two_pow (hwide.trans_le (Nat.pow_le_pow_right (by decide) hj))]

/-- After k levels two consecutive indices are in the same cell, or in cells of which the first touches the second: the cells
are those of the first k groups, which are the same number or consecutive ones. -/
theorem encCell_consecutive {idx k : Nat} (hidx : idx + 1 < 2 ^ (n * dim)) (hk : k ≤ n) :
    (idx / 2 ^ ((n - k) * dim) = (idx + 1) / 2 ^ ((n - k) * dim) ∧
      encCell lanes dim n idx k = encCell lanes dim n (idx + 1) k) ∨
    (idx / 2 ^ ((n - k) * dim) + 1 = (idx + 1) / 2 ^ ((n - k) * dim) ∧
      (encCell lanes dim n idx k).Touches dim (encCell lanes dim n (idx + 1) k)) := by
  induction k with
  | zero =>
    rw [Nat.sub_zero, Nat.div_eq_of_lt hidx, Nat.div_eq_of_lt (by omega), encCell_zero, encCell_zero]
    exact .inl ⟨rfl, rfl⟩
  | succ k ih =>
    have hgroups := div_two_pow_levels_succ idx dim hk
    have hgroups' := div_two_pow_levels_succ (idx + 1) dim hk
    have hw := indexGroup_lt idx dim n k
    have hw' := indexGroup_lt (idx + 1) dim n k
    have hcarry : (idx + 1) / 2 ^ ((n - (k + 1)) * dim) = idx / 2 ^ ((n - (k + 1)) * dim) ∨
        (idx + 1) / 2 ^ ((n - (k + 1)) * dim) = idx / 2 ^ ((n - (k + 1)) * dim) + 1 := by
      rw [Nat.succ_div]
      split_ifs
      · exact .inr rfl
      · exact .inl rfl
    rw [encCell_succ hdim hlanes _ hk, encCell_succ hdim hlanes _ hk]
    rcases ih (by omega) with ⟨hsame, hcell⟩ | ⟨hnext, htouch⟩
    · rw [← hsame] at hgroups'
      rw [← hcell]
      rcases hcarry with h | h
      · have hgroup : indexGroup (idx + 1) dim n k = indexGroup idx dim n k := by omega
        exact .inl ⟨h.symm, by rw [hgroup]⟩
      · have hgroup : indexGroup (idx + 1) dim n k = indexGroup idx dim n k + 1 := by omega
        rw [hgroup] at hw' ⊢
        exact .inr ⟨h.symm, GridCell.touches_sub_succ _ hw'⟩
    · rw [← hnext, Nat.add_mul, Nat.one_mul] at hgroups'
      have hlast : indexGroup idx dim n k = 2 ^ dim - 1 := by omega
      have hfirst : indexGroup (idx + 1) dim n k = 0 := by omega
      rw [hlast, hfirst]
      exact .inr ⟨by omega, htouch.sub (encPrefix_orient lanes dim n idx k hdim).2⟩

/-- Consecutive indices of the domain are different numbers, so ENCODE ends in cells that touch. -/
theorem encCell_touches {idx : Nat} (hidx : idx + 1 < 2 ^ (n * dim)) :
    (encCell lanes dim n idx n).Touches dim (encCell lanes dim n (idx + 1) n) := by
  rcases encCell_consecutive hdim hlanes hidx le_rfl with ⟨hsame, -⟩ | ⟨-, htouch⟩
  · simp at hsame
  · exact htouch

end

/-- Settles O29: the coordinates are the cells after all levels, and cells that touch are neighbours. -/
theorem consecutiveIndicesAreNeighbours : Obligations.ConsecutiveIndicesAreNeighbours := by
  intro s u a b hs hp hcfg hsucc hidx ha hb
  have hu := hs.congr hp hcfg
  obtain rfl := coord_of_exec_encode hs (by omega) ha
  obtain rfl := coord_of_exec_encode hu (by rwa [State.curveD_congr hcfg, State.curveN_congr hcfg]) hb
  obtain ⟨-, hdim, hdmax, -⟩ := hs
  rw [hsucc] at hidx
  have hnear := (encCell_touches hdim hdmax hidx).neighbours
  simpa only [encCell_pos_all, State.curveD_congr hcfg, State.curveN_congr hcfg, hp, hsucc] using hnear

end Sys2Proof.Machine
end

section
/-! PROOF. The family 60_exceptions: a failed command (60 R91 to R102). -/

namespace Sys2Proof.Machine

/-! ## A command succeeds or raises -/

/-- The outcome `o` of an acceptance in `s` is a response with status OK, `cfg` perhaps changed, or `raise` in `s` itself
(00 R12, 60 R99). -/
def State.OkOrRaise (s : State) (o : StepOutcome) : Prop :=
  (∃ cfg data coord, o = respond .ok data coord { s with cfg := cfg }) ∨ ∃ e, o = raise e s

theorem State.OkOrRaise.raise {s : State} (e : Status) : s.OkOrRaise (raise e s) := .inr ⟨e, rfl⟩

theorem State.OkOrRaise.ok {s : State} (data : Nat) (coord : List Nat) : s.OkOrRaise (respond .ok data coord s) :=
  .inl ⟨s.cfg, data, coord, rfl⟩

theorem State.OkOrRaise.okData {s : State} (x : Nat) : s.OkOrRaise (respondData x s) := .ok x _

/-- A check that raises, before an outcome of the two kinds. -/
theorem State.OkOrRaise.check {s : State} {P : Prop} [Decidable P] {e : Status} {o : StepOutcome} (h : s.OkOrRaise o) :
    s.OkOrRaise (if P then Machine.raise e s else o) := by
  split_ifs
  · exact .raise e
  · exact h

theorem execConfig_okOrRaise (d n : Nat) (s : State) : s.OkOrRaise (execConfig d n s) := by
  unfold execConfig
  split_ifs
  · exact .inl ⟨_, _, _, rfl⟩
  · exact .raise _

/-- Every command's meaning is a chain of checks that raise, and then a success. -/
theorem exec_okOrRaise (i : Instr) (s : State) : s.OkOrRaise (exec i s) := by
  cases i with
  | config d n => exact execConfig_okOrRaise d n s
  | encode => exact .check (.check (.ok ..))
  | decode l => exact .check (.check (.check (.ok ..)))
  | bitrange width start stop => exact .check (.okData _)
  | rotl width amount => exact .check (.okData _)
  | rotr width amount => exact .check (.okData _)
  | grayenc => exact .okData _
  | graydec => exact .okData _
  | tsb width => exact .check (.okData _)

/-- The acceptance of any word succeeds or raises too: an illegal word raises IllegalCommand (60 R97). -/
theorem accept_okOrRaise (s : State) : s.OkOrRaise (accept s) := by
  unfold accept
  split
  next i _ => exact exec_okOrRaise i s
  next => exact .raise .illegalCommand

/-! ## The trace of a failure -/

@[simp] theorem State.answered_lastResponse (s : State) (r : Response) : (s.answered r).lastResponse = some r := by
  simp [State.lastResponse, State.responses]

/-- A next state whose last response failed was raised: it is the old state with `raise`'s response (60 R99). -/
theorem State.OkOrRaise.eq_answered_of_failed {s t : State} {r : Response} (h : s.OkOrRaise (.next t))
    (hlast : t.lastResponse = some r) (hfail : r.status.code ≠ 0#4) :
    ∃ e, r = ⟨e, 0, zeroCoord s.params⟩ ∧ t = s.answered r := by
  rcases h with ⟨cfg, data, coord, hok⟩ | ⟨e, hraise⟩
  · rw [respond_eq] at hok
    cases hok
    rw [State.answered_lastResponse] at hlast
    cases hlast
    exact absurd rfl hfail
  · rw [raise_eq] at hraise
    cases hraise
    rw [State.answered_lastResponse] at hlast
    cases hlast
    exact ⟨e, rfl, rfl⟩

/-- Settles O20: both acceptances succeed or raise, and a response that failed is not a success. -/
theorem failureLeavesNoTrace : Obligations.FailureLeavesNoTrace := by
  intro i s t r h hlast hfail
  have hkind : s.OkOrRaise (.next t) := by
    rcases h with h | h
    · exact h ▸ exec_okOrRaise i s
    · exact h ▸ accept_okOrRaise s
  obtain ⟨e, rfl, rfl⟩ := hkind.eq_answered_of_failed hlast hfail
  exact ⟨rfl, rfl, rfl, rfl⟩

end Sys2Proof.Machine
end

section
/-! PROOF. The family 70_reset_and_hazards: reset edges, the time before the first reset, the host's duty, and the two
handshakes (70 R110 to R117). -/

namespace Sys2Proof.Machine

/-! ## The next state of an edge -/

theorem step_of_rst {s : State} (h : s.hostRefusal = none) (hrst : s.edge.rst = true) :
    step s = .next s.resetEdge := by
  simp [step, h, hrst]

theorem step_of_not_inTransfer {s : State} (h : s.hostRefusal = none) (hrst : s.edge.rst = false)
    (hin : s.inTransfer = false) : step s = .next (s.endEdge s) := by
  simp [step, h, hrst, hin]

/-- Every edge, a reset edge or not, leaves the offer that it does not transfer (70 R115). -/
theorem step_offered {s t : State} (h : step s = .next t) : t.offered = s.nextOffered := by
  rcases step_cases s t h with ⟨-, -, rfl⟩ | ⟨-, -, -, rfl⟩ | ⟨-, -, -, u, -, rfl⟩ <;> rfl

theorem step_stall {s t : State} (hrst : s.edge.rst = false) (h : step s = .next t) : t.stall = s.nextStall := by
  rcases step_cases s t h with ⟨hr, -, -⟩ | ⟨-, -, -, rfl⟩ | ⟨-, -, -, u, -, rfl⟩
  · simp [hrst] at hr
  · rfl
  · rfl

/-- An edge out of reset that delivers nothing leaves every entry of `Q` in its place, one edge older. -/
theorem step_queue_of_not_outTransfer {s t : State} (hrst : s.edge.rst = false) (hout : s.outTransfer = false)
    (h : step s = .next t) : ∃ added, t.queue = (s.queue ++ added).map Entry.age := by
  rcases step_cases s t h with ⟨hr, -, -⟩ | ⟨-, -, -, rfl⟩ | ⟨-, -, -, u, hu, rfl⟩
  · simp [hrst] at hr
  · exact ⟨[], by simp [State.endEdge_queue, hout]⟩
  · obtain ⟨r, hq⟩ := accept_queue s u hu
    exact ⟨[⟨r, s.latency⟩], by simp [State.endEdge_queue, hout, hq]⟩

/-! ## The host's duty (70 R112, R115) -/

theorem State.offerHeld_iff (s : State) :
    s.offerHeld = true ↔ ∀ c, s.offered = some c → s.edge.inValid = true ∧ s.inCommand = c := by
  cases hoff : s.offered with
  | none => simp [State.offerHeld, hoff]
  | some c => simp [s.offerHeld_some c hoff]

/-- At a reset edge, before the first one too, the duty is that of R115 alone. -/
theorem State.hostRefusal_rst (s : State) (h : s.edge.rst = true) :
    s.hostRefusal = if s.offerHeld then none else some .commandNotHeld := by
  simp [State.hostRefusal, h]

/-- Before the first reset and out of reset, the duty of R112 comes first (log 8). -/
theorem State.hostRefusal_beforeReset (s : State) (hst : s.started = false) (hrst : s.edge.rst = false)
    (hv : s.edge.inValid = true) : s.hostRefusal = some .commandBeforeReset := by
  simp [State.hostRefusal, hst, hrst, hv]

theorem State.hostRefusal_quiet (s : State) (hv : s.edge.inValid = false) (hoff : s.offered = none) :
    s.hostRefusal = none := by
  simp [State.hostRefusal, State.offerHeld, hv, hoff]

theorem State.nextOffered_untransferred (s : State) (hv : s.edge.inValid = true) (hin : s.inTransfer = false) :
    s.nextOffered = some s.inCommand := by
  simp [State.nextOffered, hv, hin]

theorem State.nextOffered_none (s : State) (h : s.edge.inValid = false ∨ s.inTransfer = true) :
    s.nextOffered = none := by
  rcases h with h | h <;> simp [State.nextOffered, h]

/-! ## The ports of the two handshakes (70 R111, R116, R117) -/

theorem State.inReady_iff (s : State) :
    s.inReady = true ↔
      s.started = true ∧ s.edge.rst = false ∧ s.stall = 0 ∧ s.queue.length < s.params.qcap := by
  simp [State.inReady, State.full, and_assoc]

theorem State.outValid_iff (s : State) :
    s.outValid = true ↔
      s.started = true ∧ s.edge.rst = false ∧ ∃ e rest, s.queue = e :: rest ∧ e.wait = 0 := by
  simp only [State.outValid, Option.isSome_iff_exists, State.outResponse_eq_some]
  constructor
  · rintro ⟨r, hst, hrst, rest, hq⟩
    exact ⟨hst, hrst, ⟨r, 0⟩, rest, hq, rfl⟩
  · rintro ⟨hst, hrst, ⟨r, wait⟩, rest, hq, rfl⟩
    exact ⟨r, hst, hrst, rest, hq⟩

/-- Nothing is transferred at a reset edge (70 R110). -/
theorem State.inTransfer_rst (s : State) (h : s.edge.rst = true) : s.inTransfer = false := by
  simp [State.inTransfer, State.inReady, h]

theorem State.outTransfer_rst (s : State) (h : s.edge.rst = true) : s.outTransfer = false := by
  simp [State.outTransfer, State.outValid, State.outResponse, h]

/-- With room in `Q`, the count of `in_ready` falls while it is not 0. -/
theorem State.nextStall_succ (s : State) (hroom : s.queue.length < s.params.qcap) (h : s.stall ≠ 0) :
    s.nextStall + 1 = s.stall := by
  have hfull : s.full = false := by simpa [State.full] using hroom
  simp only [State.nextStall, hfull, beq_iff_eq, h, if_false, Bool.false_eq_true]
  omega

/-! ## The statements -/

/-- Settles O10: at a reset edge the only refusal is that of an offer not held, and otherwise the step is `resetEdge`. -/
theorem resetEdgeClears : Obligations.ResetEdgeClears := by
  intro s hrst
  refine ⟨s.inTransfer_rst hrst, s.outTransfer_rst hrst, fun hheld => ?_, fun c hoff hnot => ?_⟩
  · have hhost : s.hostRefusal = none := by rw [s.hostRefusal_rst hrst, if_pos (s.offerHeld_iff.2 hheld)]
    exact ⟨_, step_of_rst hhost hrst, rfl, rfl, rfl, rfl, rfl⟩
  · rw [step_refused_iff, s.hostRefusal_rst hrst, if_neg (mt (s.offerHeld_some c hoff).1 hnot)]

/-- Settles O12: an offer is refused by R112; a quiet edge transfers nothing, so it is the end of an edge alone. -/
theorem commandBeforeResetIsRefused : Obligations.CommandBeforeResetIsRefused := by
  intro s hst hrst
  refine ⟨fun hv => ?_, fun hv hoff => ?_⟩
  · exact (step_refused_iff s _).2 (s.hostRefusal_beforeReset hst hrst hv)
  · have hin : s.inTransfer = false := by simp [State.inTransfer, hv]
    exact ⟨_, step_of_not_inTransfer (s.hostRefusal_quiet hv hoff) hrst hin, by simpa using hst,
      s.nextOffered_none (.inl hv)⟩

/-- Settles O13: the first edge leaves the untransferred offer in `offered`, and at the second edge that offer alone decides
between a next state and the refusal. -/
theorem offeredCommandIsHeld : Obligations.OfferedCommandIsHeld := by
  refine fun s => ⟨fun _ => rfl, fun t hstep hst => ⟨fun ⟨hv, hin⟩ => ?_, fun hdone => ?_⟩⟩
  · have hoff : t.offered = some s.inCommand := (step_offered hstep).trans (s.nextOffered_untransferred hv hin)
    have hheld := t.offerHeld_some s.inCommand hoff
    refine ⟨fun h => step_next t ?_, fun h => ?_⟩
    · rw [t.hostRefusal_started hst, if_pos (hheld.2 h)]
    · rw [step_refused_iff, t.hostRefusal_started hst, if_neg (mt hheld.1 h)]
  · have hoff : t.offered = none := (step_offered hstep).trans (s.nextOffered_none hdone)
    have hheld : t.offerHeld = true := t.offerHeld_iff.2 (by simp [hoff])
    exact step_next t (by rw [t.hostRefusal_started hst, if_pos hheld])

/-- Settles O14: the presented response is the head of `Q` with wait 0; an edge that does not deliver it leaves it the head,
and one edge of time leaves its wait 0. -/
theorem presentedResponseIsHeld : Obligations.PresentedResponseIsHeld := by
  refine fun s => ⟨fun hq => ?_, fun hst hrst => by simp [s.outValid_iff, hst, hrst], fun r hr => ?_⟩
  · rw [← Bool.not_eq_true, s.outValid_iff]
    simp [hq]
  · obtain ⟨hst, hrst, rest, hq⟩ := (s.outResponse_eq_some r).1 hr
    refine ⟨by simp [State.responses, hq], fun t hready hstep htrst => ?_⟩
    have hout : s.outTransfer = false := by simp [State.outTransfer, hready]
    obtain ⟨-, hstarted, -⟩ := transfersAreIndependent s t hrst hstep
    obtain ⟨added, htq⟩ := step_queue_of_not_outTransfer hrst hout hstep
    exact (t.outResponse_eq_some r).2 ⟨hstarted.trans hst, htrst, (rest ++ added).map Entry.age, by rw [htq, hq]; rfl⟩

/-- Settles O15: out of reset with room in `Q`, the count alone decides `in_ready`, and it falls while it is not 0. -/
theorem inReadyComesBack : Obligations.InReadyComesBack := by
  refine fun s => ⟨fun h => ?_, fun t hinv hst hrst hroom hstep => ⟨hinv.stall hst, ?_⟩⟩
  · rw [← Bool.not_eq_true, s.inReady_iff]
    rintro ⟨-, hrst, -, hroom⟩
    rcases h with hr | hfull
    · simp [hrst] at hr
    · omega
  · by_cases hzero : s.stall = 0
    · exact .inl (s.inReady_iff.2 ⟨hst, hrst, hzero, hroom⟩)
    · exact .inr (by rw [step_stall hrst hstep, s.nextStall_succ hroom hzero])

end Sys2Proof.Machine
end
